-- ==== Sys2Proof/Word.lean ====
section
/-! DEFINITION. The widths of the values the CHIP-8 core handles (spec 00_scope.md R7 to R9, 10_state.md R22 to R34).
Every value of the block is unsigned (R9). -/

namespace Sys2Proof

/-- An 8-bit value: a value register, a timer, a memory byte, an `NN` immediate, the random input (R7, R82). -/
abbrev Byte := BitVec 8

/-- A 16-bit value: an instruction word, `PC`, `I`, a call-stack slot (R7, R80). -/
abbrev Word := BitVec 16

/-- A 4-bit field of an instruction word: the major opcode, a sub-opcode, the row count `N` (R82). -/
abbrev Nibble := BitVec 4

/-- The 12-bit address field `NNN` of an instruction word (R82, R84). -/
abbrev Addr := BitVec 12

/-- The number of one of 16 like things: a value register `V0..VF` (R22), a key `0x0..0xF` (R31). -/
abbrev Reg := Fin 16

/-- `VF`, `V[15]`: a general register and the implicit flag output (R23). -/
abbrev VF : Reg := 15

end Sys2Proof
end

