-- ==== Sys2Proof/Config.lean ====
section
/-! DEFINITION. The free values of the model: what the spec leaves OPEN and the environment supplies (00_scope.md R7).

The other OPEN parameter, `FONT`, is plain data carried in the machine's memory (Machine/State.lean, log entry 5), and
`HOST_ON_UNSUPPORTED` is a policy of the host, not of the block (Safety.lean, log entry 9). Neither constant below has a
body: no proof can see a value of it. -/

namespace Sys2Proof

/-- `RND`: the random byte the environment gives to the `n`-th `TICK`, where no host operation in the state names it
(10_state.md R49: "any of the 256 values may arrive at any tick"; 92_eei_decisions.md D14; log entry 3). -/
opaque Config.freeRnd : Nat → Byte

/-- `KEY_SELECT`: the choice the environment makes for the `n`-th `TICK` among the pressed keys, as an index that is
reduced modulo their number (44_input_timers.md R168: "a model admits any element of P"; D12; log entry 4). -/
opaque Config.freePick : Nat → Nat

end Sys2Proof
end

