-- ==== Sys2Proof/Machine/Flags.lean ====
section
/-! DEFINITION. The values written to VF as a flag, each 0 or 1 (42_alu.md R130, 41_display.md R123). -/

namespace Sys2Proof.Machine

/-- A flag value: 1 for true, 0 for false (10_state.md R23). -/
def flagByte (b : Bool) : Byte := if b then 1 else 0

/-- 8XY4: 1 where the exact sum exceeds 255 (R137). -/
def carryFlag (a b : Byte) : Byte := flagByte (decide (a.toNat + b.toNat > 255))

/-- 8XY5 and 8XY7: 0 where `a - b` borrows, that is `a < b`, else 1 (R138, R140). -/
def noBorrowFlag (a b : Byte) : Byte := if a.toNat < b.toNat then 0 else 1

/-- 8XY6: the bit a right shift drops, `a & 1` (R139). -/
def lowBitFlag (a : Byte) : Byte := a &&& 1

/-- 8XYE: the bit a left shift drops, `(a >> 7) & 1` (R141). -/
def highBitFlag (a : Byte) : Byte := (a >>> 7) &&& 1

end Sys2Proof.Machine
end

