-- ==== Sys2Proof/Syntax.lean ====
section
/-! DEFINITION. The 35 instructions of the decode table (30_encoding.md R85), one constructor a row of
spec/opcode_table.json, in the table's order. The operand types are the widths of the fields of R82. -/

namespace Sys2Proof

/-- An instruction. `x` and `y` are register numbers, `nn` an 8-bit immediate, `n` a 4-bit count, `nnn` a 12-bit address
(R82, R84); nothing is sign-extended or scaled. -/
inductive Instr where
  /-- `0x0000` NOP (R101). -/
  | nop
  /-- `0x00E0` CLS (R120). -/
  | cls
  /-- `0x00EE` RET (R102). -/
  | ret
  /-- `0x1NNN` JP NNN (R103). -/
  | jp (nnn : Addr)
  /-- `0x2NNN` CALL NNN (R104). -/
  | call (nnn : Addr)
  /-- `0x3XNN` SE VX, NN (R105). -/
  | seVxNn (x : Reg) (nn : Byte)
  /-- `0x4XNN` SNE VX, NN (R106). -/
  | sneVxNn (x : Reg) (nn : Byte)
  /-- `0x5XY0` SE VX, VY (R107). -/
  | seVxVy (x y : Reg)
  /-- `0x6XNN` LD VX, NN (R131). -/
  | ldVxNn (x : Reg) (nn : Byte)
  /-- `0x7XNN` ADD VX, NN (R132). -/
  | addVxNn (x : Reg) (nn : Byte)
  /-- `0x8XY0` LD VX, VY (R133). -/
  | ldVxVy (x y : Reg)
  /-- `0x8XY1` OR VX, VY (R134). -/
  | orVxVy (x y : Reg)
  /-- `0x8XY2` AND VX, VY (R135). -/
  | andVxVy (x y : Reg)
  /-- `0x8XY3` XOR VX, VY (R136). -/
  | xorVxVy (x y : Reg)
  /-- `0x8XY4` ADD VX, VY (R137). -/
  | addVxVy (x y : Reg)
  /-- `0x8XY5` SUB VX, VY (R138). -/
  | subVxVy (x y : Reg)
  /-- `0x8XY6` SHR VX, VY (R139); `y` is encoded and not read (R89). -/
  | shrVxVy (x y : Reg)
  /-- `0x8XY7` SUBN VX, VY (R140). -/
  | subnVxVy (x y : Reg)
  /-- `0x8XYE` SHL VX, VY (R141); `y` is encoded and not read (R89). -/
  | shlVxVy (x y : Reg)
  /-- `0x9XY0` SNE VX, VY (R108). -/
  | sneVxVy (x y : Reg)
  /-- `0xANNN` LD I, NNN (R150). -/
  | ldINnn (nnn : Addr)
  /-- `0xBNNN` JP V0, NNN (R109); always `V0`, whatever bits 11..8 hold (R84). -/
  | jpV0Nnn (nnn : Addr)
  /-- `0xCXNN` RND VX, NN (R142). -/
  | rndVxNn (x : Reg) (nn : Byte)
  /-- `0xDXYN` DRW VX, VY, N (R121). -/
  | drwVxVyN (x y : Reg) (n : Nibble)
  /-- `0xEX9E` SKP VX (R165). -/
  | skpVx (x : Reg)
  /-- `0xEXA1` SKNP VX (R166). -/
  | sknpVx (x : Reg)
  /-- `0xFX07` LD VX, DT (R167). -/
  | ldVxDt (x : Reg)
  /-- `0xFX0A` LD VX, K (R168). -/
  | ldVxK (x : Reg)
  /-- `0xFX15` LD DT, VX (R169). -/
  | ldDtVx (x : Reg)
  /-- `0xFX18` LD ST, VX (R170). -/
  | ldStVx (x : Reg)
  /-- `0xFX1E` ADD I, VX (R151). -/
  | addIVx (x : Reg)
  /-- `0xFX29` LD F, VX (R152). -/
  | ldFVx (x : Reg)
  /-- `0xFX33` LD B, VX (R153). -/
  | ldBVx (x : Reg)
  /-- `0xFX55` LD [I], VX (R154). -/
  | ldMemVx (x : Reg)
  /-- `0xFX65` LD VX, [I] (R155). -/
  | ldVxMem (x : Reg)
deriving DecidableEq, Repr

end Sys2Proof
end

