-- ==== Sys2Proof/WellFormed.lean ====
section
/-! DEFINITION. Which instructions written with plain numbers are instructions (30_encoding.md R82, R84, R90).

The field types of `Instr` already are the widths of R82, so every term of `Instr` is well formed. The checks stand where an
instruction is given by plain numbers: a row of the decode table and the operands an assembler line writes (R90, R91). -/

namespace Sys2Proof

/-- An instruction by plain numbers: its row in the table of R85 (1..35) and its operands. An operand the row does not have
is left 0; `y` left 0 is also what the short spellings `SHR VX` and `SHL VX` encode (R90). -/
structure RawInstr where
  row : Nat
  x   : Nat := 0
  y   : Nat := 0
  n   : Nat := 0
  nn  : Nat := 0
  nnn : Nat := 0
deriving DecidableEq, Repr

namespace RawInstr

/-- The table has 35 rows (R85). -/
def rowOk (r : RawInstr) : Bool := 1 ≤ r.row && r.row ≤ 35
/-- X is a register number 0..15 (R82, R84). -/
def xOk (r : RawInstr) : Bool := r.x < 16
/-- Y is a register number 0..15 (R82, R84). -/
def yOk (r : RawInstr) : Bool := r.y < 16
/-- N is an unsigned count 0..15 (R84). -/
def nOk (r : RawInstr) : Bool := r.n < 16
/-- NN is an unsigned 8-bit value (R84). -/
def nnOk (r : RawInstr) : Bool := r.nn < 256
/-- NNN is an unsigned 12-bit address (R84). -/
def nnnOk (r : RawInstr) : Bool := r.nnn < 4096

/-- Every number is in its field's range. -/
def wellFormed (r : RawInstr) : Bool := r.rowOk && r.xOk && r.yOk && r.nOk && r.nnOk && r.nnnOk

/-- The instruction the numbers name, where they are well formed. -/
def toInstr (r : RawInstr) : Option Instr :=
  let x : Reg := Fin.ofNat 16 r.x
  let y : Reg := Fin.ofNat 16 r.y
  let n : Nibble := BitVec.ofNat 4 r.n
  let nn : Byte := BitVec.ofNat 8 r.nn
  let nnn : Addr := BitVec.ofNat 12 r.nnn
  if r.wellFormed then
    match r.row with
    | 1 => some .nop
    | 2 => some .cls
    | 3 => some .ret
    | 4 => some (.jp nnn)
    | 5 => some (.call nnn)
    | 6 => some (.seVxNn x nn)
    | 7 => some (.sneVxNn x nn)
    | 8 => some (.seVxVy x y)
    | 9 => some (.ldVxNn x nn)
    | 10 => some (.addVxNn x nn)
    | 11 => some (.ldVxVy x y)
    | 12 => some (.orVxVy x y)
    | 13 => some (.andVxVy x y)
    | 14 => some (.xorVxVy x y)
    | 15 => some (.addVxVy x y)
    | 16 => some (.subVxVy x y)
    | 17 => some (.shrVxVy x y)
    | 18 => some (.subnVxVy x y)
    | 19 => some (.shlVxVy x y)
    | 20 => some (.sneVxVy x y)
    | 21 => some (.ldINnn nnn)
    | 22 => some (.jpV0Nnn nnn)
    | 23 => some (.rndVxNn x nn)
    | 24 => some (.drwVxVyN x y n)
    | 25 => some (.skpVx x)
    | 26 => some (.sknpVx x)
    | 27 => some (.ldVxDt x)
    | 28 => some (.ldVxK x)
    | 29 => some (.ldDtVx x)
    | 30 => some (.ldStVx x)
    | 31 => some (.addIVx x)
    | 32 => some (.ldFVx x)
    | 33 => some (.ldBVx x)
    | 34 => some (.ldMemVx x)
    | 35 => some (.ldVxMem x)
    | _ => none
  else none

end RawInstr

/-- The row and the operands of an instruction, as plain numbers. -/
def Instr.toRaw : Instr → RawInstr
  | .nop => { row := 1 }
  | .cls => { row := 2 }
  | .ret => { row := 3 }
  | .jp nnn => { row := 4, nnn := nnn.toNat }
  | .call nnn => { row := 5, nnn := nnn.toNat }
  | .seVxNn x nn => { row := 6, x := x.val, nn := nn.toNat }
  | .sneVxNn x nn => { row := 7, x := x.val, nn := nn.toNat }
  | .seVxVy x y => { row := 8, x := x.val, y := y.val }
  | .ldVxNn x nn => { row := 9, x := x.val, nn := nn.toNat }
  | .addVxNn x nn => { row := 10, x := x.val, nn := nn.toNat }
  | .ldVxVy x y => { row := 11, x := x.val, y := y.val }
  | .orVxVy x y => { row := 12, x := x.val, y := y.val }
  | .andVxVy x y => { row := 13, x := x.val, y := y.val }
  | .xorVxVy x y => { row := 14, x := x.val, y := y.val }
  | .addVxVy x y => { row := 15, x := x.val, y := y.val }
  | .subVxVy x y => { row := 16, x := x.val, y := y.val }
  | .shrVxVy x y => { row := 17, x := x.val, y := y.val }
  | .subnVxVy x y => { row := 18, x := x.val, y := y.val }
  | .shlVxVy x y => { row := 19, x := x.val, y := y.val }
  | .sneVxVy x y => { row := 20, x := x.val, y := y.val }
  | .ldINnn nnn => { row := 21, nnn := nnn.toNat }
  | .jpV0Nnn nnn => { row := 22, nnn := nnn.toNat }
  | .rndVxNn x nn => { row := 23, x := x.val, nn := nn.toNat }
  | .drwVxVyN x y n => { row := 24, x := x.val, y := y.val, n := n.toNat }
  | .skpVx x => { row := 25, x := x.val }
  | .sknpVx x => { row := 26, x := x.val }
  | .ldVxDt x => { row := 27, x := x.val }
  | .ldVxK x => { row := 28, x := x.val }
  | .ldDtVx x => { row := 29, x := x.val }
  | .ldStVx x => { row := 30, x := x.val }
  | .addIVx x => { row := 31, x := x.val }
  | .ldFVx x => { row := 32, x := x.val }
  | .ldBVx x => { row := 33, x := x.val }
  | .ldMemVx x => { row := 34, x := x.val }
  | .ldVxMem x => { row := 35, x := x.val }

/-- An instruction is well formed when its row and operands are in range (`Laws/Encoding.lean` proves that every term of
`Instr` is, by its types). -/
def Instr.WellFormed (i : Instr) : Bool := i.toRaw.wellFormed

end Sys2Proof
end

