-- ==== Sys2Proof/Decode.lean ====
section
/-! DEFINITION. Decoding and encoding (30_encoding.md R80 to R91). -/

namespace Sys2Proof

/-! ### The fields of a word (R82) -/

/-- `b1`, the major opcode, `w[15:12]`. -/
def fieldB1 (w : Word) : Nibble := w.extractLsb' 12 4
/-- `X`, `w[11:8]`. -/
def fieldX (w : Word) : Reg := (w.extractLsb' 8 4).toFin
/-- `Y`, `w[7:4]`. -/
def fieldY (w : Word) : Reg := (w.extractLsb' 4 4).toFin
/-- `N`, `w[3:0]`. -/
def fieldN (w : Word) : Nibble := w.extractLsb' 0 4
/-- `NN`, `w[7:0]`. -/
def fieldNN (w : Word) : Byte := w.extractLsb' 0 8
/-- `NNN`, `w[11:0]`. -/
def fieldNNN (w : Word) : Addr := w.extractLsb' 0 12

/-! ### The decoder: on `b1`, then on `b4` or the low byte (R82), the rows of R85; any other word is unsupported (R86) -/

/-- The words of major opcode 0: three exact words (R85 rows 1 to 3). -/
def decodeMajor0 (w : Word) : Option Instr :=
  if w = 0x0000#16 then some .nop
  else if w = 0x00E0#16 then some .cls
  else if w = 0x00EE#16 then some .ret
  else none

/-- The words of major opcode 8, by `b4` (R85 rows 11 to 19). -/
def decodeMajor8 (w : Word) : Option Instr :=
  match (fieldN w).toNat with
  | 0x0 => some (.ldVxVy (fieldX w) (fieldY w))
  | 0x1 => some (.orVxVy (fieldX w) (fieldY w))
  | 0x2 => some (.andVxVy (fieldX w) (fieldY w))
  | 0x3 => some (.xorVxVy (fieldX w) (fieldY w))
  | 0x4 => some (.addVxVy (fieldX w) (fieldY w))
  | 0x5 => some (.subVxVy (fieldX w) (fieldY w))
  | 0x6 => some (.shrVxVy (fieldX w) (fieldY w))
  | 0x7 => some (.subnVxVy (fieldX w) (fieldY w))
  | 0xE => some (.shlVxVy (fieldX w) (fieldY w))
  | _ => none

/-- The words of major opcode E, by the low byte (R85 rows 25, 26). -/
def decodeMajorE (w : Word) : Option Instr :=
  match (fieldNN w).toNat with
  | 0x9E => some (.skpVx (fieldX w))
  | 0xA1 => some (.sknpVx (fieldX w))
  | _ => none

/-- The words of major opcode F, by the low byte (R85 rows 27 to 35). -/
def decodeMajorF (w : Word) : Option Instr :=
  match (fieldNN w).toNat with
  | 0x07 => some (.ldVxDt (fieldX w))
  | 0x0A => some (.ldVxK (fieldX w))
  | 0x15 => some (.ldDtVx (fieldX w))
  | 0x18 => some (.ldStVx (fieldX w))
  | 0x1E => some (.addIVx (fieldX w))
  | 0x29 => some (.ldFVx (fieldX w))
  | 0x33 => some (.ldBVx (fieldX w))
  | 0x55 => some (.ldMemVx (fieldX w))
  | 0x65 => some (.ldVxMem (fieldX w))
  | _ => none

/-- The words of major opcodes 5 and 9, whose `b4` must be 0 (R85 rows 8, 20). -/
def decodeSub0 (w : Word) (i : Instr) : Option Instr :=
  match (fieldN w).toNat with
  | 0x0 => some i
  | _ => none

/-- The instruction a word stands for; `none` where no row of R85 matches (R86). -/
def decodeWord (w : Word) : Option Instr :=
  match (fieldB1 w).toNat with
  | 0x0 => decodeMajor0 w
  | 0x1 => some (.jp (fieldNNN w))
  | 0x2 => some (.call (fieldNNN w))
  | 0x3 => some (.seVxNn (fieldX w) (fieldNN w))
  | 0x4 => some (.sneVxNn (fieldX w) (fieldNN w))
  | 0x5 => decodeSub0 w (.seVxVy (fieldX w) (fieldY w))
  | 0x6 => some (.ldVxNn (fieldX w) (fieldNN w))
  | 0x7 => some (.addVxNn (fieldX w) (fieldNN w))
  | 0x8 => decodeMajor8 w
  | 0x9 => decodeSub0 w (.sneVxVy (fieldX w) (fieldY w))
  | 0xA => some (.ldINnn (fieldNNN w))
  | 0xB => some (.jpV0Nnn (fieldNNN w))
  | 0xC => some (.rndVxNn (fieldX w) (fieldNN w))
  | 0xD => some (.drwVxVyN (fieldX w) (fieldY w) (fieldN w))
  | 0xE => decodeMajorE w
  | 0xF => decodeMajorF w
  | _ => none

/-- Why bytes are no instruction. -/
inductive DecodeError where
  /-- Fewer than the two bytes of a word (R80). -/
  | truncated
  /-- The word matches no row (R86). -/
  | unsupported (w : Word)
deriving DecidableEq, Repr

/-- The first word of a byte sequence, high byte first (R64, R80), its instruction and the bytes after it. -/
def decodeBytes : List Byte → Except DecodeError (Instr × List Byte)
  | hi :: lo :: rest =>
    match decodeWord (hi ++ lo) with
    | some i => .ok (i, rest)
    | none => .error (.unsupported (hi ++ lo))
  | _ => .error .truncated

/-! ### The encoder: the layouts of R83, bit 15 on the left -/

/-- A register number as a 4-bit field. -/
def regField (r : Reg) : Nibble := BitVec.ofFin r

/-- Layout `NNN`: `op[15:12] NNN[11:0]`. -/
def layoutNNN (op : Nibble) (nnn : Addr) : Word := op ++ nnn
/-- Layout `XNN`: `op[15:12] X[11:8] NN[7:0]`. -/
def layoutXNN (op : Nibble) (x : Reg) (nn : Byte) : Word := op ++ (regField x ++ nn)
/-- Layouts `XYS` and `XYN`: `op[15:12] X[11:8] Y[7:4]` and four more bits. -/
def layoutXYN (op : Nibble) (x y : Reg) (n : Nibble) : Word := op ++ (regField x ++ (regField y ++ n))
/-- Layout `XSS`: `op[15:12] X[11:8] sub[7:0]`. -/
def layoutXSS (op : Nibble) (x : Reg) (sub : Byte) : Word := op ++ (regField x ++ sub)

/-- The word of an instruction: the pattern of its row with the fields filled in (R83, R85). -/
def encode : Instr → Word
  | .nop => 0x0000#16
  | .cls => 0x00E0#16
  | .ret => 0x00EE#16
  | .jp nnn => layoutNNN 0x1#4 nnn
  | .call nnn => layoutNNN 0x2#4 nnn
  | .seVxNn x nn => layoutXNN 0x3#4 x nn
  | .sneVxNn x nn => layoutXNN 0x4#4 x nn
  | .seVxVy x y => layoutXYN 0x5#4 x y 0x0#4
  | .ldVxNn x nn => layoutXNN 0x6#4 x nn
  | .addVxNn x nn => layoutXNN 0x7#4 x nn
  | .ldVxVy x y => layoutXYN 0x8#4 x y 0x0#4
  | .orVxVy x y => layoutXYN 0x8#4 x y 0x1#4
  | .andVxVy x y => layoutXYN 0x8#4 x y 0x2#4
  | .xorVxVy x y => layoutXYN 0x8#4 x y 0x3#4
  | .addVxVy x y => layoutXYN 0x8#4 x y 0x4#4
  | .subVxVy x y => layoutXYN 0x8#4 x y 0x5#4
  | .shrVxVy x y => layoutXYN 0x8#4 x y 0x6#4
  | .subnVxVy x y => layoutXYN 0x8#4 x y 0x7#4
  | .shlVxVy x y => layoutXYN 0x8#4 x y 0xE#4
  | .sneVxVy x y => layoutXYN 0x9#4 x y 0x0#4
  | .ldINnn nnn => layoutNNN 0xA#4 nnn
  | .jpV0Nnn nnn => layoutNNN 0xB#4 nnn
  | .rndVxNn x nn => layoutXNN 0xC#4 x nn
  | .drwVxVyN x y n => layoutXYN 0xD#4 x y n
  | .skpVx x => layoutXSS 0xE#4 x 0x9E#8
  | .sknpVx x => layoutXSS 0xE#4 x 0xA1#8
  | .ldVxDt x => layoutXSS 0xF#4 x 0x07#8
  | .ldVxK x => layoutXSS 0xF#4 x 0x0A#8
  | .ldDtVx x => layoutXSS 0xF#4 x 0x15#8
  | .ldStVx x => layoutXSS 0xF#4 x 0x18#8
  | .addIVx x => layoutXSS 0xF#4 x 0x1E#8
  | .ldFVx x => layoutXSS 0xF#4 x 0x29#8
  | .ldBVx x => layoutXSS 0xF#4 x 0x33#8
  | .ldMemVx x => layoutXSS 0xF#4 x 0x55#8
  | .ldVxMem x => layoutXSS 0xF#4 x 0x65#8

/-- The two bytes of a word as memory holds them, high byte at the lower address (R64). -/
def wordBytes (w : Word) : List Byte := [w.extractLsb' 8 8, w.extractLsb' 0 8]

/-- The bytes of an instruction as memory holds them. -/
def encodeBytes (i : Instr) : List Byte := wordBytes (encode i)

/-! ### The table of R85 itself: a word selects a row when `w & mask == match` -/

/-- One row of the table: its number, its mask and its match. -/
structure OpcodeRow where
  num  : Nat
  mask : Word
  pat  : Word
deriving DecidableEq, Repr

/-- `w & mask == match` (R85). -/
def OpcodeRow.selects (r : OpcodeRow) (w : Word) : Bool := w &&& r.mask == r.pat

/-- The 35 rows of R85, in its order. -/
def opcodeRows : List OpcodeRow :=
  [⟨1, 0xFFFF#16, 0x0000#16⟩, ⟨2, 0xFFFF#16, 0x00E0#16⟩, ⟨3, 0xFFFF#16, 0x00EE#16⟩,
   ⟨4, 0xF000#16, 0x1000#16⟩, ⟨5, 0xF000#16, 0x2000#16⟩, ⟨6, 0xF000#16, 0x3000#16⟩,
   ⟨7, 0xF000#16, 0x4000#16⟩, ⟨8, 0xF00F#16, 0x5000#16⟩, ⟨9, 0xF000#16, 0x6000#16⟩,
   ⟨10, 0xF000#16, 0x7000#16⟩, ⟨11, 0xF00F#16, 0x8000#16⟩, ⟨12, 0xF00F#16, 0x8001#16⟩,
   ⟨13, 0xF00F#16, 0x8002#16⟩, ⟨14, 0xF00F#16, 0x8003#16⟩, ⟨15, 0xF00F#16, 0x8004#16⟩,
   ⟨16, 0xF00F#16, 0x8005#16⟩, ⟨17, 0xF00F#16, 0x8006#16⟩, ⟨18, 0xF00F#16, 0x8007#16⟩,
   ⟨19, 0xF00F#16, 0x800E#16⟩, ⟨20, 0xF00F#16, 0x9000#16⟩, ⟨21, 0xF000#16, 0xA000#16⟩,
   ⟨22, 0xF000#16, 0xB000#16⟩, ⟨23, 0xF000#16, 0xC000#16⟩, ⟨24, 0xF000#16, 0xD000#16⟩,
   ⟨25, 0xF0FF#16, 0xE09E#16⟩, ⟨26, 0xF0FF#16, 0xE0A1#16⟩, ⟨27, 0xF0FF#16, 0xF007#16⟩,
   ⟨28, 0xF0FF#16, 0xF00A#16⟩, ⟨29, 0xF0FF#16, 0xF015#16⟩, ⟨30, 0xF0FF#16, 0xF018#16⟩,
   ⟨31, 0xF0FF#16, 0xF01E#16⟩, ⟨32, 0xF0FF#16, 0xF029#16⟩, ⟨33, 0xF0FF#16, 0xF033#16⟩,
   ⟨34, 0xF0FF#16, 0xF055#16⟩, ⟨35, 0xF0FF#16, 0xF065#16⟩]

/-! ### The table word of the host's check -/

/-- The word whose bits are `w`, of which the table gives `nbits`: bits above `nbits` are 0, and an instruction has 16. -/
def tableWord (nbits w : Nat) : Word := BitVec.ofNat 16 (w % 2 ^ nbits)

/-- The instruction the decoder reads from a table word laid out in memory order (R64, R80). -/
def decodeTableWord (nbits w : Nat) : Option Instr :=
  match decodeBytes (wordBytes (tableWord nbits w)) with
  | .ok (i, _) => some i
  | .error _ => none

end Sys2Proof
end

