-- ==== Sys2Proof/Machine/State.lean ====
section
/-! DEFINITION. The state of the block (10_state.md R20 to R35), plain data, and what a step can answer with.

The fields fall in two groups: the spec's tuple `(M, V, I, PC, STACK, SP, DT, ST, KEY, FB, FAULT)` (R20), and the model's own
fields, which hold what the spec calls "parameters of a step" and the host's side of the interface (log entries 1, 3, 4, 5, 7). -/

namespace Sys2Proof.Machine

/-- Memory `M` (R21). `cells` lists addresses in rising order with the bytes that differ from the reset contents;
an unlisted address reads as its reset contents: `FONT` at 0x000..0x04F and 0 elsewhere (20_memory.md R63; log entry 11).
`font` is the parameter `FONT` (R62), which no operation writes (log entry 5). -/
structure Memory where
  font  : Vector Byte 80
  cells : List Host.Cell
deriving DecidableEq, Repr

/-- The fault causes (60_exceptions.md R181). -/
inductive Cause where
  /-- Code 1: the fetch of a TICK with `PC > 0xFFE`. -/
  | fetchOutOfRange
  /-- Code 2: DXYN, FX33, FX55 or FX65 accessing an address above 0xFFF. -/
  | memoryOutOfRange
  /-- Code 3: 2NNN with `SP == 16`. -/
  | stackOverflow
  /-- Code 4: 00EE with `SP == 0`. -/
  | stackUnderflow
  /-- Code 5: EX9E or EXA1 with `V[X] > 15`. -/
  | keyIndexOutOfRange
deriving DecidableEq, Repr

/-- The fault record (R33): the cause, the address the faulting instruction was (or was to be) fetched from, its word
(none when the fetch itself faulted), and the cause's extra value (an address, a key index, or none). -/
structure FaultRecord where
  cause : Cause
  fpc   : Word
  fword : Option Word
  finfo : Option Nat
deriving DecidableEq, Repr

/-- The framebuffer (R32): 32 rows of 64 pixels, true meaning lit; `FB[x, y]` is pixel `x` of row `y`. -/
abbrev Framebuffer := Vector (Vector Bool 64) 32

/-- The operations the host can invoke (R40). -/
inductive HostOp where
  /-- `RESET` (70_reset_and_hazards.md R200). -/
  | reset
  /-- `LOAD(img)` (R43). -/
  | load (img : List Byte)
  /-- `SET_KEY(k, p)` (R44). -/
  | setKey (k : Nat) (p : Bool)
  /-- `TICK(rnd)` (R45); `pick` is the choice `KEY_SELECT` makes in this tick (log entry 4). -/
  | tick (rnd : Byte) (pick : Nat)
  /-- `TICK_TIMERS` (60_exceptions.md R187). -/
  | tickTimers
  /-- `READ_FB` (R47). -/
  | readFb
deriving DecidableEq, Repr

/-- What an operation returns to the host (R40's "result"). -/
inductive Answer where
  /-- RESET and SET_KEY return nothing. -/
  | nothing
  /-- LOAD and TICK: done. -/
  | ok
  /-- LOAD: the image was not loaded. -/
  | rejected
  /-- TICK: the word matched no row (30_encoding.md R87). -/
  | unsupported (w : Word)
  /-- TICK: the block is faulted (R45, R48, R182). -/
  | fault (c : Cause)
  /-- TICK_TIMERS: whether the sound alert is emitted (60_exceptions.md R188). -/
  | alert (b : Bool)
  /-- READ_FB: the 2048 pixels, row-major. -/
  | pixels (ps : List Bool)
deriving DecidableEq, Repr

/-- The state of the block, and the model's own fields. -/
structure State where
  /-- `M` (R21). -/
  mem     : Memory
  /-- `V[0]..V[15]` (R22, R23). -/
  v       : Vector Byte 16
  /-- `I` (R25). -/
  i       : Word
  /-- `PC` (R26). -/
  pc      : Word
  /-- `STACK[0]..STACK[15]` (R27). -/
  stack   : Vector Word 16
  /-- `SP`, 0..16 (R27). -/
  sp      : Fin 17
  /-- `DT` (R29). -/
  dt      : Byte
  /-- `ST` (R30). -/
  st      : Byte
  /-- `KEY[0]..KEY[15]`, true meaning pressed (R31). -/
  key     : Vector Bool 16
  /-- `FB` (R32). -/
  fb      : Framebuffer
  /-- `FAULT` (R33). -/
  fault   : Option FaultRecord
  /-- Model's own: `rnd`, the random byte input of the current TICK (R49; log entry 3). -/
  rnd     : Byte
  /-- Model's own: the choice `KEY_SELECT` makes in the current TICK (44_input_timers.md R168; log entry 4). -/
  pick    : Nat
  /-- Model's own: how many TICKs there have been, so that each gets free inputs of its own (log entries 3, 4). -/
  ticks   : Nat
  /-- Model's own: the host's operations not yet performed, oldest first (R40, R41; log entry 1). -/
  pending : List HostOp
  /-- Model's own: what the last operation returned to the host (R40; log entry 7). -/
  answer  : Answer
deriving DecidableEq, Repr

/-- The reasons a step stops the machine with a fault. There is none: a fault of the block is a state, which the spec
describes (60_exceptions.md R182, R183) and the host can leave by RESET, so its entry and every operation on a faulted block
answer a next state (log entry 2). -/
inductive Fault where
deriving DecidableEq, Repr

/-- The reasons a step has no meaning. -/
inductive Refusal where
  /-- Raised by an arm of `exec` whose instruction has no meaning yet; safe. No arm raises it. -/
  | notModelled (mnemonic : String)
  /-- Raised by the host operation `SET_KEY(k, p)` with `k > 15`: "a host contract violation the model does not admit (no
  transition)" (R44, D19); safe. No instruction raises it (log entry 10). -/
  | setKeyOutsideContract (k : Nat)
deriving DecidableEq, Repr

/-- What an operation or an instruction answers. -/
abbrev Result := Host.Outcome State Fault Refusal

/-- The state right after `RESET` (70_reset_and_hazards.md R200), with the default `FONT` (log entry 5) and the model's own
fields at the values of log entries 1, 3, 4, 7. -/
def State.reset : State where
  mem     := ⟨defaultFont, []⟩
  v       := Vector.replicate 16 0
  i       := 0
  pc      := 0x200
  stack   := Vector.replicate 16 0
  sp      := 0
  dt      := 0
  st      := 0
  key     := Vector.replicate 16 false
  fb      := Vector.replicate 32 (Vector.replicate 64 false)
  fault   := none
  rnd     := 0
  pick    := 0
  ticks   := 0
  pending := []
  answer  := .nothing

end Sys2Proof.Machine
end

