-- ==== Sys2Proof/Machine/Ops.lean ====
section
/-! DEFINITION. The named operations over memory, registers, stack and framebuffer, fetching a word, and taking a fault
(20_memory.md R60 to R74, 10_state.md R22 to R33, 30_encoding.md R81, 60_exceptions.md R182). -/

namespace Sys2Proof.Machine

/-! ### Memory -/

/-- What an unlisted address reads as: the reset contents of memory (20_memory.md R63). -/
def Memory.unlisted (m : Memory) (a : Nat) : Byte := if h : a < 80 then m.font[a] else 0

/-- The byte a list of cells gives an address, where it lists it. -/
def lookupCell : List Host.Cell → Nat → Option Byte
  | [], _ => none
  | (b, w) :: t, a => if b = a then some w else lookupCell t a

/-- `M[a]`. The accesses of the block come here only through `memRead`, `fetch` and LOAD, which stay below 0x1000. -/
def Memory.byteAt (m : Memory) (a : Nat) : Byte := (lookupCell m.cells a).getD (m.unlisted a)

/-- Lists `v` at `a`, keeping the addresses rising. -/
def insertCell (a : Nat) (v : Byte) : List Host.Cell → List Host.Cell
  | [] => [(a, v)]
  | (b, w) :: t =>
    if a < b then (a, v) :: (b, w) :: t
    else if a = b then (a, v) :: t
    else (b, w) :: insertCell a v t

/-- Takes `a` out of the list. -/
def eraseCell (a : Nat) : List Host.Cell → List Host.Cell
  | [] => []
  | (b, w) :: t => if a = b then eraseCell a t else (b, w) :: eraseCell a t

/-- `M[a] <- v`, in the canonical form: the value an unlisted address reads as is not listed. -/
def Memory.write (m : Memory) (a : Nat) (v : Byte) : Memory :=
  { m with cells := if v = m.unlisted a then eraseCell a m.cells else insertCell a v m.cells }

/-- The canonical form of memory: rising addresses, all of them of the address space, none listed with the byte it reads as
unlisted (log entry 11). -/
abbrev Memory.wf (m : Memory) : Prop :=
  m.cells.Pairwise (fun p q => p.1 < q.1) ∧ ∀ c ∈ m.cells, c.1 < 4096 ∧ c.2 ≠ m.unlisted c.1

/-- `MemRead(a, 1)`; the error carries the address that is out of range (20_memory.md R66). -/
def Memory.memRead (m : Memory) (a : Nat) : Except Nat Byte :=
  if a > 0xFFF then .error a else .ok (m.byteAt a)

/-- `MemWrite(a, 1, v)`; the error carries the address that is out of range (20_memory.md R66). -/
def Memory.memWrite (m : Memory) (a : Nat) (v : Byte) : Except Nat Memory :=
  if a > 0xFFF then .error a else .ok (m.write a v)

/-- `n` byte reads at `a`, `a + 1`, ..; the first address out of range ends them (20_memory.md R65). -/
def Memory.readBytes (m : Memory) : Nat → Nat → Except Nat (List Byte)
  | _, 0 => .ok []
  | a, n + 1 =>
    match m.memRead a with
    | .error e => .error e
    | .ok b =>
      match m.readBytes (a + 1) n with
      | .error e => .error e
      | .ok bs => .ok (b :: bs)

/-- Byte writes at `a`, `a + 1`, ..; the first address out of range ends them (20_memory.md R65). -/
def Memory.writeBytes (m : Memory) : Nat → List Byte → Except Nat Memory
  | _, [] => .ok m
  | a, b :: bs =>
    match m.memWrite a b with
    | .error e => .error e
    | .ok m' => m'.writeBytes (a + 1) bs

/-- The bytes of a program image written at `a`, `a + 1`, .. (10_state.md R43, where the image is known to fit). -/
def Memory.writeImage (m : Memory) : Nat → List Byte → Memory
  | _, [] => m
  | a, b :: bs => (m.write a b).writeImage (a + 1) bs

/-- The word at an address: `{M[a], M[a+1]}`, high byte at the lower address (20_memory.md R64). -/
def Memory.wordAt (m : Memory) (a : Nat) : Word := m.byteAt a ++ m.byteAt (a + 1)

/-! ### Registers -/

/-- Reads `V[x]` (10_state.md R22). -/
def State.reg (s : State) (x : Reg) : Byte := s.v.get x

/-- `V[x] <- b` (10_state.md R22). -/
def State.setReg (s : State) (x : Reg) (b : Byte) : State := { s with v := s.v.set x.val b }

/-- `V[x] <- b; V[0xF] <- flag`, in this order, so that the flag remains where `x` is 15 (00_scope.md R11). -/
def State.setRegAndFlag (s : State) (x : Reg) (b flag : Byte) : State := (s.setReg x b).setReg VF flag

/-- `V[k] <- b_0; V[k+1] <- b_1; ..` (43_index_memory.md R155). -/
def State.setRegsFrom (s : State) : Nat → List Byte → State
  | _, [] => s
  | k, b :: bs => { s with v := s.v.setIfInBounds k b }.setRegsFrom (k + 1) bs

/-- `PC <- a`. -/
def State.setPc (s : State) (a : Word) : State := { s with pc := a }

/-- `I <- a`. -/
def State.setI (s : State) (a : Word) : State := { s with i := a }

/-- `DT <- b`. -/
def State.setDt (s : State) (b : Byte) : State := { s with dt := b }

/-- `ST <- b`. -/
def State.setSt (s : State) (b : Byte) : State := { s with st := b }

/-- `M` becomes `m`. -/
def State.setMem (s : State) (m : Memory) : State := { s with mem := m }

/-- `FB` becomes `fb`. -/
def State.setFb (s : State) (fb : Framebuffer) : State := { s with fb := fb }

/-- The model's own record of what the operation returns (log entry 7). -/
def State.setAnswer (s : State) (a : Answer) : State := { s with answer := a }

/-- A skip: `PC <- PC + 2` where the condition holds (40_control.md R100). -/
def State.skipIf (s : State) (c : Bool) : State := if c then s.setPc (s.pc + 2) else s

/-! ### The call stack (10_state.md R27, R28) -/

/-- `push(v)`: `STACK[SP] <- v; SP <- SP + 1`; none where `SP == 16`. -/
def State.push (s : State) (a : Word) : Option State :=
  if h : s.sp.val < 16 then some { s with stack := s.stack.set s.sp.val a, sp := ⟨s.sp.val + 1, by omega⟩ } else none

/-- `pop()`: `SP <- SP - 1; return STACK[SP]`, the slot kept; none where `SP == 0`. -/
def State.pop (s : State) : Option (Word × State) :=
  if h : 0 < s.sp.val then
    some (s.stack[s.sp.val - 1]'(by omega), { s with sp := ⟨s.sp.val - 1, by omega⟩ })
  else none

/-! ### The framebuffer (10_state.md R32) -/

/-- Every pixel dark. -/
def darkFramebuffer : Framebuffer := Vector.replicate 32 (Vector.replicate 64 false)

/-- `FB[x, y]`. -/
def pixelAt (fb : Framebuffer) (x : Fin 64) (y : Fin 32) : Bool := (fb.get y).get x

/-- `FB[x, y] <- not FB[x, y]`. -/
def flipPixel (fb : Framebuffer) (x : Fin 64) (y : Fin 32) : Framebuffer :=
  fb.set y.val ((fb.get y).set x.val (!pixelAt fb x y))

/-- The row-major sequence of the 2048 pixels, element `x + 64*y` being `FB[x, y]` (10_state.md R32, R47). -/
def flatPixels (fb : Framebuffer) : List Bool := fb.toList.flatMap (·.toList)

/-! ### Fetch (30_encoding.md R81) -/

/-- The word at `PC`, and the state with `PC` past it; none where `PC > 0xFFE`. -/
def fetch (s : State) : Option (Word × State) :=
  if s.pc.toNat > 0xFFE then none else some (s.mem.wordAt s.pc.toNat, s.setPc (s.pc + 2))

/-! ### Taking a fault (60_exceptions.md R182)

The state of the block is the one before the operation, `s0`, with `FAULT` set; there is no handler, no vector, no mode and no
return but RESET (R183, R186). -/

/-- Fault entry at the state `s0` before the operation: `FAULT <- (cause, S0.PC, fword, info)`. -/
def enterFault (c : Cause) (fword : Option Word) (info : Option Nat) (s0 : State) : State :=
  { s0 with fault := some ⟨c, s0.pc, fword, info⟩, answer := .fault c }

/-- The state before the fetch of the instruction in execution: the fetch only moved `PC` by 2 (30_encoding.md R81). -/
def State.beforeFetch (s : State) : State := s.setPc (s.pc - 2)

/-- An instruction's own fault. A meaning runs on the state after the fetch and has written nothing yet, so `S0` is
`beforeFetch`; the fetched word is the instruction's encoding, since each word has one (log entry 8). -/
def raiseFault (c : Cause) (info : Option Nat) (i : Instr) (s : State) : Result :=
  .next (enterFault c (some (encode i)) info s.beforeFetch)

end Sys2Proof.Machine
end

