-- ==== Sys2Proof/Machine/Operands.lean ====
section
/-! DEFINITION. The operands of the instructions: how fields and registers become addresses, digits, keys and pixels
(30_encoding.md R84, 41_display.md R121, R122, 43_index_memory.md R152 to R155, 44_input_timers.md R165, R168). -/

namespace Sys2Proof.Machine

/-- `zext_16(NNN)` (R84). -/
def zextAddr (nnn : Addr) : Word := nnn.setWidth 16

/-- `zext_16` of a byte (00_scope.md R9). -/
def zextByte (b : Byte) : Word := b.setWidth 16

/-- The address of the font glyph of a digit: `digit * 5`, the digit not masked (R152). -/
def glyphAddress (digit : Byte) : Word := BitVec.ofNat 16 (digit.toNat * 5)

/-- The decimal digits of a byte: hundreds, tens, ones (R153). -/
def decimalDigits (a : Byte) : List Byte :=
  [BitVec.ofNat 8 (a.toNat / 100), BitVec.ofNat 8 (a.toNat / 10 % 10), BitVec.ofNat 8 (a.toNat % 10)]

/-- `V[0]..V[X]`, in order (R154). -/
def regsUpTo (s : State) (x : Reg) : List Byte := s.v.toList.take (x.val + 1)

/-- The key a register's value names; none where the value is above 15 (R165, R166). -/
def keyIndex (a : Byte) : Option Reg := if h : a.toNat < 16 then some ⟨a.toNat, h⟩ else none

/-- `KEY[k]` (10_state.md R31). -/
def State.keyDown (s : State) (k : Reg) : Bool := s.key.get k

/-- `P`, the pressed keys, in rising order (R168). -/
def pressedKeys (s : State) : List Reg := (List.finRange 16).filter s.keyDown

/-- `KEY_SELECT(P)`: an element of `P`, none where `P` is empty. `pick` is free, so any element may be the one
(R168, D12; log entry 4). -/
def keySelect (p : List Reg) (pick : Nat) : Option Reg := p[pick % p.length]?

/-- Column `c` of a sprite row, counted from the left, is bit `7 - c` (R122). -/
def spriteBit (row : Byte) (c : Nat) : Bool := row.getLsbD (7 - c)

/-- The pixel a coordinate names: `(px mod 64, py mod 32)`, so both axes wrap (R121). -/
def wrapPixel (px py : Nat) : Fin 64 × Fin 32 := (Fin.ofNat 64 px, Fin.ofNat 32 py)

/-- The pixels the set bits of one sprite row touch, `x0` being its left column and `py` its line (R121). -/
def rowPixels (x0 py : Nat) (row : Byte) : List (Fin 64 × Fin 32) :=
  ((List.range 8).filter (spriteBit row)).map fun c => wrapPixel (x0 + c) py

/-- The pixels the set bits of a sprite touch, row by row from `py` down (R121). -/
def spritePixels (x0 : Nat) : Nat → List Byte → List (Fin 64 × Fin 32)
  | _, [] => []
  | py, row :: rows => rowPixels x0 py row ++ spritePixels x0 (py + 1) rows

/-- One touched pixel: `hit` where it was lit, and it flips (R121, R123). -/
def touchPixel (d : Framebuffer × Bool) (p : Fin 64 × Fin 32) : Framebuffer × Bool :=
  (flipPixel d.1 p.1 p.2, d.2 || pixelAt d.1 p.1 p.2)

/-- The framebuffer after a draw, and whether any touched pixel was lit (R121, R123). -/
def drawPixels (fb : Framebuffer) (ps : List (Fin 64 × Fin 32)) : Framebuffer × Bool := ps.foldl touchPixel (fb, false)

end Sys2Proof.Machine
end

