-- ==== Sys2Proof/Machine/Alu.lean ====
section
/-! DEFINITION. Register loads, logic, arithmetic, shifts and the random byte (42_alu.md R130 to R142). Operands are read
before any write, and a flag is written last (00_scope.md R11). -/

namespace Sys2Proof.Machine

/-- LD VX, NN (R131). -/
def execLdVxNn (x : Reg) (nn : Byte) (s : State) : Result := .next (s.setReg x nn)

/-- ADD VX, NN: modulo 256, no flag (R132). -/
def execAddVxNn (x : Reg) (nn : Byte) (s : State) : Result := .next (s.setReg x (s.reg x + nn))

/-- LD VX, VY (R133). -/
def execLdVxVy (x y : Reg) (s : State) : Result := .next (s.setReg x (s.reg y))

/-- OR VX, VY: no flag (R134). -/
def execOrVxVy (x y : Reg) (s : State) : Result := .next (s.setReg x (s.reg x ||| s.reg y))

/-- AND VX, VY: no flag (R135). -/
def execAndVxVy (x y : Reg) (s : State) : Result := .next (s.setReg x (s.reg x &&& s.reg y))

/-- XOR VX, VY: no flag (R136). -/
def execXorVxVy (x y : Reg) (s : State) : Result := .next (s.setReg x (s.reg x ^^^ s.reg y))

/-- ADD VX, VY: VF is the carry (R137). -/
def execAddVxVy (x y : Reg) (s : State) : Result :=
  .next (s.setRegAndFlag x (s.reg x + s.reg y) (carryFlag (s.reg x) (s.reg y)))

/-- SUB VX, VY: `a - b`, VF is 1 where there is no borrow (R138). -/
def execSubVxVy (x y : Reg) (s : State) : Result :=
  .next (s.setRegAndFlag x (s.reg x - s.reg y) (noBorrowFlag (s.reg x) (s.reg y)))

/-- SHR VX {, VY}: VX shifts right, VF is the bit shifted out; Y is not read (R139, 30_encoding.md R89). -/
def execShrVxVy (x _y : Reg) (s : State) : Result :=
  .next (s.setRegAndFlag x (s.reg x >>> 1) (lowBitFlag (s.reg x)))

/-- SUBN VX, VY: `b - a`, VF is 1 where there is no borrow (R140). -/
def execSubnVxVy (x y : Reg) (s : State) : Result :=
  .next (s.setRegAndFlag x (s.reg y - s.reg x) (noBorrowFlag (s.reg y) (s.reg x)))

/-- SHL VX {, VY}: VX shifts left, VF is the bit shifted out; Y is not read (R141, 30_encoding.md R89). -/
def execShlVxVy (x _y : Reg) (s : State) : Result :=
  .next (s.setRegAndFlag x (s.reg x <<< 1) (highBitFlag (s.reg x)))

/-- RND VX, NN: `V[X] <- rnd & NN`, `rnd` the tick's random input (R142, 10_state.md R49). -/
def execRndVxNn (x : Reg) (nn : Byte) (s : State) : Result := .next (s.setReg x (s.rnd &&& nn))

end Sys2Proof.Machine
end

