-- ==== Sys2Proof/Machine/Control.lean ====
section
/-! DEFINITION. Control flow (40_control.md R100 to R109). Each meaning runs on the state after the fetch, so `PC` is the
instruction's own address plus 2; a target is not checked when it is set (R100). -/

namespace Sys2Proof.Machine

/-- NOP: nothing (R101). -/
def execNop (s : State) : Result := .next s

/-- RET: `PC <- pop()`; STACK_UNDERFLOW where `SP == 0` (R102). -/
def execRet (s : State) : Result :=
  match s.pop with
  | some (a, s') => .next (s'.setPc a)
  | none => raiseFault .stackUnderflow none .ret s

/-- JP NNN: `PC <- zext_16(NNN)` (R103). -/
def execJp (nnn : Addr) (s : State) : Result := .next (s.setPc (zextAddr nnn))

/-- CALL NNN: `push(PC); PC <- zext_16(NNN)`; STACK_OVERFLOW where `SP == 16` (R104). -/
def execCall (nnn : Addr) (s : State) : Result :=
  match s.push s.pc with
  | some s' => .next (s'.setPc (zextAddr nnn))
  | none => raiseFault .stackOverflow none (.call nnn) s

/-- SE VX, NN: skip if `V[X] == NN` (R105). -/
def execSeVxNn (x : Reg) (nn : Byte) (s : State) : Result := .next (s.skipIf (s.reg x == nn))

/-- SNE VX, NN: skip if `V[X] != NN` (R106). -/
def execSneVxNn (x : Reg) (nn : Byte) (s : State) : Result := .next (s.skipIf (s.reg x != nn))

/-- SE VX, VY: skip if `V[X] == V[Y]` (R107). -/
def execSeVxVy (x y : Reg) (s : State) : Result := .next (s.skipIf (s.reg x == s.reg y))

/-- SNE VX, VY: skip if `V[X] != V[Y]` (R108). -/
def execSneVxVy (x y : Reg) (s : State) : Result := .next (s.skipIf (s.reg x != s.reg y))

/-- JP V0, NNN: `PC <- V[0] + zext_16(NNN)` (R109). -/
def execJpV0Nnn (nnn : Addr) (s : State) : Result := .next (s.setPc (zextByte (s.reg 0) + zextAddr nnn))

end Sys2Proof.Machine
end

