-- ==== Sys2Proof/Machine/Display.lean ====
section
/-! DEFINITION. The framebuffer clear and the sprite compositor (41_display.md R120 to R124). -/

namespace Sys2Proof.Machine

/-- CLS: every pixel goes dark; VF is not written (R120). -/
def execCls (s : State) : Result := .next (s.setFb darkFramebuffer)

/-- DRW VX, VY, N: the N sprite rows at `I` are read first, then drawn with XOR at `(V[X], V[Y])`, and VF is set to the
collision flag; MEMORY_OUT_OF_RANGE where a row lies above 0xFFF (R121 to R123). With N = 0 nothing is read or drawn. -/
def execDrwVxVyN (x y : Reg) (n : Nibble) (s : State) : Result :=
  match s.mem.readBytes s.i.toNat n.toNat with
  | .error a => raiseFault .memoryOutOfRange (some a) (.drwVxVyN x y n) s
  | .ok rows =>
    let d := drawPixels s.fb (spritePixels (s.reg x).toNat (s.reg y).toNat rows)
    .next ((s.setFb d.1).setReg VF (flagByte d.2))

end Sys2Proof.Machine
end

