-- ==== Sys2Proof/Machine/IndexMemory.lean ====
section
/-! DEFINITION. The index register and the moves between registers and memory (43_index_memory.md R150 to R155). None of
these writes VF as a flag. -/

namespace Sys2Proof.Machine

/-- LD I, NNN (R150). -/
def execLdINnn (nnn : Addr) (s : State) : Result := .next (s.setI (zextAddr nnn))

/-- ADD I, VX: modulo 65536, no flag (R151). -/
def execAddIVx (x : Reg) (s : State) : Result := .next (s.setI (s.i + zextByte (s.reg x)))

/-- LD F, VX: `I <- V[X] * 5` (R152). -/
def execLdFVx (x : Reg) (s : State) : Result := .next (s.setI (glyphAddress (s.reg x)))

/-- LD B, VX: the decimal digits of VX at `I`, `I+1`, `I+2`; MEMORY_OUT_OF_RANGE, and no digit written, where one lies above
0xFFF (R153). -/
def execLdBVx (x : Reg) (s : State) : Result :=
  match s.mem.writeBytes s.i.toNat (decimalDigits (s.reg x)) with
  | .error a => raiseFault .memoryOutOfRange (some a) (.ldBVx x) s
  | .ok m => .next (s.setMem m)

/-- LD [I], VX: `V0..VX` at `I` and up; `I` is kept; MEMORY_OUT_OF_RANGE, and no byte written, where one lies above 0xFFF
(R154). -/
def execLdMemVx (x : Reg) (s : State) : Result :=
  match s.mem.writeBytes s.i.toNat (regsUpTo s x) with
  | .error a => raiseFault .memoryOutOfRange (some a) (.ldMemVx x) s
  | .ok m => .next (s.setMem m)

/-- LD VX, [I]: `V0..VX` from `I` and up; `I` is kept; MEMORY_OUT_OF_RANGE, and no register written, where one lies above
0xFFF (R155). -/
def execLdVxMem (x : Reg) (s : State) : Result :=
  match s.mem.readBytes s.i.toNat (x.val + 1) with
  | .error a => raiseFault .memoryOutOfRange (some a) (.ldVxMem x) s
  | .ok bs => .next (s.setRegsFrom 0 bs)

end Sys2Proof.Machine
end

