-- ==== Sys2Proof/Machine/InputTimers.lean ====
section
/-! DEFINITION. The key tests, the key wait, and the timer reads and writes (44_input_timers.md R165 to R170). -/

namespace Sys2Proof.Machine

/-- SKP VX: skip if `KEY[V[X]]` is pressed; KEY_INDEX_OUT_OF_RANGE where `V[X] > 15` (R165). -/
def execSkpVx (x : Reg) (s : State) : Result :=
  match keyIndex (s.reg x) with
  | some k => .next (s.skipIf (s.keyDown k))
  | none => raiseFault .keyIndexOutOfRange (some (s.reg x).toNat) (.skpVx x) s

/-- SKNP VX: skip if `KEY[V[X]]` is released; KEY_INDEX_OUT_OF_RANGE where `V[X] > 15` (R166). -/
def execSknpVx (x : Reg) (s : State) : Result :=
  match keyIndex (s.reg x) with
  | some k => .next (s.skipIf (!s.keyDown k))
  | none => raiseFault .keyIndexOutOfRange (some (s.reg x).toNat) (.sknpVx x) s

/-- LD VX, DT (R167). -/
def execLdVxDt (x : Reg) (s : State) : Result := .next (s.setReg x s.dt)

/-- LD VX, K: with no key pressed `PC` goes back to this instruction, else VX is a pressed key, whichever `KEY_SELECT`
gives (R168). -/
def execLdVxK (x : Reg) (s : State) : Result :=
  match keySelect (pressedKeys s) s.pick with
  | none => .next (s.setPc (s.pc - 2))
  | some k => .next (s.setReg x (BitVec.ofNat 8 k.val))

/-- LD DT, VX (R169). -/
def execLdDtVx (x : Reg) (s : State) : Result := .next (s.setDt (s.reg x))

/-- LD ST, VX; it never emits the alert (R170). -/
def execLdStVx (x : Reg) (s : State) : Result := .next (s.setSt (s.reg x))

end Sys2Proof.Machine
end

