-- ==== Sys2Proof/Machine/HostOps.lean ====
section
/-! DEFINITION. The six operations of the block's interface (10_state.md R40 to R49, 60_exceptions.md R187, R188,
70_reset_and_hazards.md R200). Each is one atomic transaction and leaves in `answer` what it returns to the host. -/

namespace Sys2Proof.Machine

/-- `RESET`: every item at its reset value, whether the block is faulted or not; `FONT` and the model's own inputs stay (R200;
log entries 3, 4, 5). -/
def resetBlock (s : State) : State :=
  { State.reset with
    mem := ⟨s.mem.font, []⟩, rnd := s.rnd, pick := s.pick, ticks := s.ticks, pending := s.pending, answer := .nothing }

/-- `LOAD(img)`: the image at 0x200, or `rejected` where the block is faulted or the image is longer than 3584 bytes (R43,
R48). -/
def loadImage (img : List Byte) (s : State) : State :=
  if s.fault.isSome then s.setAnswer .rejected
  else if img.length > 3584 then s.setAnswer .rejected
  else (s.setMem (s.mem.writeImage 0x200 img)).setAnswer .ok

/-- `SET_KEY(k, p)`: `KEY[k] <- p`, without effect on a faulted block; no transition where `k > 15` (R44, R48; log entry
10). -/
def setKey (k : Nat) (p : Bool) (s : State) : Result :=
  if h : k < 16 then
    if s.fault.isSome then .next (s.setAnswer .nothing)
    else .next { s with key := s.key.set k p, answer := .nothing }
  else .refused (.setKeyOutsideContract k)

/-- One timer down by 1, stopping at 0 (R187). -/
def countDown (b : Byte) : Byte := if b = 0 then 0 else b - 1

/-- `TICK_TIMERS`: both timers count down; the alert where `ST` goes from 1 to 0; nothing on a faulted block (R187, R188,
R48). -/
def tickTimers (s : State) : State :=
  if s.fault.isSome then s.setAnswer (.alert false)
  else { s with dt := countDown s.dt, st := countDown s.st, answer := .alert (s.st == 1) }

/-- `READ_FB`: the pixels, row-major, in every state (R47). -/
def readFb (s : State) : State := s.setAnswer (.pixels (flatPixels s.fb))

/-- The inputs of one TICK, recorded before it starts: its random byte, its `KEY_SELECT` choice, its number (R49; log entries
3, 4). -/
def State.beginTick (s : State) (rnd : Byte) (pick : Nat) : State :=
  { s with rnd := rnd, pick := pick, ticks := s.ticks + 1 }

/-- What follows the fetch: an unsupported word ends the tick with its diagnostic and nothing else changes (30_encoding.md R87);
any other word is executed (10_state.md R45). -/
def decodeAndExecute (w : Word) (s : State) : Result :=
  match decodeWord w with
  | none => .next (s.setAnswer (.unsupported w))
  | some i => exec i (s.setAnswer .ok)

/-- `TICK(rnd)`: fetch, decode and execute one instruction (R45); on a faulted block nothing but the stored fault is returned
(R48). The order of the tests is R184's. -/
def tick (rnd : Byte) (pick : Nat) (s : State) : Result :=
  let s := s.beginTick rnd pick
  match s.fault with
  | some f => .next (s.setAnswer (.fault f.cause))
  | none =>
    match fetch s with
    | none => .next (enterFault .fetchOutOfRange none none s)
    | some (w, s') => decodeAndExecute w s'

/-- One operation of the host (R40). -/
def perform (op : HostOp) (s : State) : Result :=
  match op with
  | .reset => .next (resetBlock s)
  | .load img => .next (loadImage img s)
  | .setKey k p => setKey k p s
  | .tick rnd pick => tick rnd pick s
  | .tickTimers => .next (tickTimers s)
  | .readFb => .next (readFb s)

/-- The next operation: the oldest one the host has asked for, and a TICK with free inputs where it has asked for none
(R41; log entry 1). -/
def nextOperation (s : State) : Result :=
  match s.pending with
  | op :: rest => perform op { s with pending := rest }
  | [] => tick (Config.freeRnd s.ticks) (Config.freePick s.ticks) s

/-- The state whose next operation is a TICK that fetches the word `w`: no operation of the host waits, the block is not
faulted, `PC` is an address a word can be fetched from (0x200 where it was not), and `w` stands there, high byte first (log
entry 6). -/
def placeWord (s : State) (w : Word) : State :=
  let pc : Word := if s.pc.toNat > 0xFFE then 0x200 else s.pc
  { s with mem := s.mem.writeImage pc.toNat (wordBytes w), pc := pc, fault := none, pending := [] }

end Sys2Proof.Machine
end

