-- ==== Sys2Proof/Machine/Step.lean ====
section
/-! DEFINITION. One step of the machine: one operation of the block's interface (10_state.md R40, R41). -/

namespace Sys2Proof.Machine

/-- One step: the next operation of the host, which is a TICK where the host has asked for nothing else (log entry 1). -/
def step (s : State) : Host.Outcome State Fault Refusal := nextOperation s

/-- `s` with a table word placed where `step` fetches its next instruction (log entry 6). -/
def State.withFetchWord (s : State) (nbits w : Nat) : State := placeWord s (tableWord nbits w)

end Sys2Proof.Machine
end

