-- ==== Sys2Proof/Safety.lean ====
section
/-! DEFINITION. The terms statements about the machine are written in: the parts of the state and what leaves them unchanged,
the tables of the spec that say which instruction reads, writes and faults on what, the invariant of the machine, and safe
runs. Each table is written from its own rule of the spec, not from the meanings. -/

namespace Sys2Proof.Machine

/-! ### What a change leaves alone (00_scope.md R12) -/

/-- The parts of the state an instruction can name. -/
inductive Part where
  | v (r : Reg)
  | i
  | pc
  | mem
  | stack
  | dt
  | st
  | key
  | fb
  | fault
deriving DecidableEq, Repr

/-- Every part of the block outside `parts` is unchanged: every register, `I`, `PC`, every byte of memory, the stack and `SP`,
the timers, the keys, the framebuffer, the fault record. `FONT` never changes. -/
structure BlockFrame (parts : List Part) (s t : State) : Prop where
  regs  : ∀ r : Reg, Part.v r ∉ parts → t.reg r = s.reg r
  i     : Part.i ∉ parts → t.i = s.i
  pc    : Part.pc ∉ parts → t.pc = s.pc
  mem   : Part.mem ∉ parts → ∀ a : Nat, t.mem.byteAt a = s.mem.byteAt a
  font  : t.mem.font = s.mem.font
  stack : Part.stack ∉ parts → t.stack = s.stack ∧ t.sp = s.sp
  dt    : Part.dt ∉ parts → t.dt = s.dt
  st    : Part.st ∉ parts → t.st = s.st
  key   : Part.key ∉ parts → t.key = s.key
  fb    : Part.fb ∉ parts → t.fb = s.fb
  fault : Part.fault ∉ parts → t.fault = s.fault

/-- As `BlockFrame`, and the model's own inputs (`rnd`, `pick`, `ticks`, `pending`) are unchanged; `answer` too, unless the
fault record is among the parts (a fault is answered to the host). -/
structure Frame (parts : List Part) (s t : State) : Prop where
  block   : BlockFrame parts s t
  rnd     : t.rnd = s.rnd
  pick    : t.pick = s.pick
  ticks   : t.ticks = s.ticks
  pending : t.pending = s.pending
  answer  : Part.fault ∉ parts → t.answer = s.answer

/-! ### Tables of the spec, instruction by instruction -/

/-- The range of registers `V0..VX`. -/
def regRange (x : Reg) : List Reg := (List.finRange 16).filter (fun r => decide (r.val ≤ x.val))

/-- The value registers an instruction reads (10_state.md R24). -/
def regsRead : Instr → List Reg
  | .nop | .cls | .ret | .jp _ | .call _ => []
  | .seVxNn x _ | .sneVxNn x _ => [x]
  | .seVxVy x y | .sneVxVy x y => [x, y]
  | .ldVxNn _ _ => []
  | .addVxNn x _ => [x]
  | .ldVxVy _ y => [y]
  | .orVxVy x y | .andVxVy x y | .xorVxVy x y => [x, y]
  | .addVxVy x y | .subVxVy x y | .subnVxVy x y => [x, y]
  | .shrVxVy x _ | .shlVxVy x _ => [x]
  | .ldINnn _ => []
  | .jpV0Nnn _ => [0]
  | .rndVxNn _ _ => []
  | .drwVxVyN x y _ => [x, y]
  | .skpVx x | .sknpVx x => [x]
  | .ldVxDt _ | .ldVxK _ => []
  | .ldDtVx x | .ldStVx x | .addIVx x | .ldFVx x | .ldBVx x => [x]
  | .ldMemVx x => regRange x
  | .ldVxMem _ => []

/-- The value registers an instruction writes (10_state.md R24). -/
def regsWritten : Instr → List Reg
  | .nop | .cls | .ret | .jp _ | .call _ => []
  | .seVxNn _ _ | .sneVxNn _ _ | .seVxVy _ _ | .sneVxVy _ _ => []
  | .ldVxNn x _ | .addVxNn x _ | .ldVxVy x _ => [x]
  | .orVxVy x _ | .andVxVy x _ | .xorVxVy x _ => [x]
  | .addVxVy x _ | .subVxVy x _ | .subnVxVy x _ => [x, VF]
  | .shrVxVy x _ | .shlVxVy x _ => [x, VF]
  | .ldINnn _ | .jpV0Nnn _ => []
  | .rndVxNn x _ => [x]
  | .drwVxVyN _ _ _ => [VF]
  | .skpVx _ | .sknpVx _ => []
  | .ldVxDt x | .ldVxK x => [x]
  | .ldDtVx _ | .ldStVx _ | .addIVx _ | .ldFVx _ | .ldBVx _ | .ldMemVx _ => []
  | .ldVxMem x => regRange x

/-- The other parts an instruction writes (40_control.md to 44_input_timers.md; `PC` beyond the fetch's advance). -/
def otherWritten : Instr → List Part
  | .nop => []
  | .cls | .drwVxVyN _ _ _ => [.fb]
  | .ret | .call _ => [.pc, .stack]
  | .jp _ | .jpV0Nnn _ => [.pc]
  | .seVxNn _ _ | .sneVxNn _ _ | .seVxVy _ _ | .sneVxVy _ _ => [.pc]
  | .skpVx _ | .sknpVx _ => [.pc]
  | .ldVxNn _ _ | .addVxNn _ _ | .ldVxVy _ _ | .orVxVy _ _ | .andVxVy _ _ | .xorVxVy _ _ => []
  | .addVxVy _ _ | .subVxVy _ _ | .shrVxVy _ _ | .subnVxVy _ _ | .shlVxVy _ _ => []
  | .rndVxNn _ _ | .ldVxDt _ => []
  | .ldVxK _ => [.pc]
  | .ldINnn _ | .addIVx _ | .ldFVx _ => [.i]
  | .ldBVx _ | .ldMemVx _ => [.mem]
  | .ldVxMem _ => []
  | .ldDtVx _ => [.dt]
  | .ldStVx _ => [.st]

/-- Every part an instruction writes when it does not fault. -/
def partsWritten (i : Instr) : List Part := (regsWritten i).map Part.v ++ otherWritten i

/-- How many bytes an instruction stores, from `I` up, when it does not fault: the writes of 20_memory.md R65. -/
def bytesStored : Instr → Nat
  | .ldBVx _ => 3
  | .ldMemVx x => x.val + 1
  | _ => 0

/-- The call-stack slots an instruction writes when it does not fault: 2NNN the slot at `SP` (10_state.md R28), none another. -/
def slotsWritten : Instr → State → List Nat
  | .call _, s => [s.sp.val]
  | _, _ => []

/-- The instructions that write VF as a flag (10_state.md R23), for one choice of operands. -/
def flagSetting (x y : Reg) (n : Nibble) : List Instr :=
  [.addVxVy x y, .subVxVy x y, .shrVxVy x y, .subnVxVy x y, .shlVxVy x y, .drwVxVyN x y n]

/-- The byte at `b` once the bytes `bs` stand from `a` up in the memory `m`. -/
def byteWithStored (m : Memory) (a : Nat) (bs : List Byte) (b : Nat) : Byte :=
  if a ≤ b then bs[b - a]?.getD (m.byteAt b) else m.byteAt b

/-- The fault an instruction raises in a state, with the value recorded (60_exceptions.md R181): none for every instruction
the table does not name. -/
def faultRaised (i : Instr) (s : State) : Option (Cause × Option Nat) :=
  let outOfRange (n : Nat) : Option (Cause × Option Nat) :=
    if n ≠ 0 ∧ s.i.toNat + (n - 1) > 0xFFF then
      some (.memoryOutOfRange, some (if s.i.toNat > 0xFFF then s.i.toNat else 0x1000))
    else none
  match i with
  | .ret => if s.sp.val = 0 then some (.stackUnderflow, none) else none
  | .call _ => if s.sp.val = 16 then some (.stackOverflow, none) else none
  | .drwVxVyN _ _ n => outOfRange n.toNat
  | .ldBVx _ => outOfRange 3
  | .ldMemVx x | .ldVxMem x => outOfRange (x.val + 1)
  | .skpVx x | .sknpVx x =>
    if (s.reg x).toNat > 15 then some (.keyIndexOutOfRange, some (s.reg x).toNat) else none
  | _ => none

/-- The number of a fault cause (60_exceptions.md R181). -/
def Cause.code : Cause → Nat
  | .fetchOutOfRange => 1
  | .memoryOutOfRange => 2
  | .stackOverflow => 3
  | .stackUnderflow => 4
  | .keyIndexOutOfRange => 5

/-- Bit `c` (from the left) of sprite row `r` is set and falls on the pixel `(px, py)`: the sprite of `DRW VX, VY, N` in the
state `s` touches that pixel (41_display.md R121, R122). -/
def spriteTouches (s : State) (x y : Reg) (n : Nibble) (px : Fin 64) (py : Fin 32) : Prop :=
  ∃ r < n.toNat, ∃ c < 8,
    (s.mem.byteAt (s.i.toNat + r)).getLsbD (7 - c) = true ∧
    px.val = ((s.reg x).toNat + c) % 64 ∧ py.val = ((s.reg y).toNat + r) % 32

/-- How many pixels are lit. -/
def litCount (fb : Framebuffer) : Nat := (Finset.univ.filter fun p : Fin 64 × Fin 32 => pixelAt fb p.1 p.2 = true).card

/-- How many set bits of the sprite of `DRW VX, VY, N` fall on a pixel that is lit, or on one that is dark (41_display.md R124):
bit `p.2` (from the left) of row `p.1`. -/
def spriteBitsOn (s : State) (x y : Reg) (n : Nibble) (lit : Bool) : Nat :=
  (Finset.univ.filter fun p : Fin 16 × Fin 8 =>
    p.1.val < n.toNat ∧ (s.mem.byteAt (s.i.toNat + p.1.val)).getLsbD (7 - p.2.val) = true ∧
    pixelAt s.fb (Fin.ofNat 64 ((s.reg x).toNat + p.2.val)) (Fin.ofNat 32 ((s.reg y).toNat + p.1.val)) = lit).card

/-- Executing `i` takes the fault `c` with the value `info` (60_exceptions.md R182): the answer is a next state in which the
block is as before the fetch, with `FAULT` recording the cause, the instruction's address and its word. -/
def TakesFault (i : Instr) (s : State) (c : Cause) (info : Option Nat) : Prop :=
  ∃ t, exec i s = .next t ∧ t.fault = some ⟨c, s.pc - 2, some (encode i), info⟩ ∧ t.pc = s.pc - 2 ∧
    t.answer = .fault c ∧ Frame [.pc, .fault] s t

/-! ### The invariant of the machine -/

/-- A fault record fits the state it stands in: it was recorded there, and the state still shows why (60_exceptions.md R181,
R182; 10_state.md R33). -/
def FaultRecord.Fits (f : FaultRecord) (s : State) : Prop :=
  f.fpc = s.pc ∧
  match f.fword with
  | none => f.cause = .fetchOutOfRange ∧ f.finfo = none ∧ s.pc.toNat > 0xFFE
  | some w => s.pc.toNat ≤ 0xFFE ∧ w = s.mem.wordAt s.pc.toNat ∧
      ∃ i, decodeWord w = some i ∧ faultRaised i s = some (f.cause, f.finfo)

/-- What holds of every state a run passes through: memory in its canonical form, `PC` at most 0x10FE (10_state.md R26), no
return address above 0x1000 on the stack, and a fault record that fits its state. -/
structure Invariant (s : State) : Prop where
  memory : s.mem.wf
  pc     : s.pc.toNat ≤ 0x10FE
  stack  : ∀ k : Fin 16, (s.stack.get k).toNat ≤ 0x1000
  fault  : ∀ f, s.fault = some f → f.Fits s

/-! ### Safe runs -/

/-- The block is not faulted (10_state.md R48). -/
def State.Running (s : State) : Prop := s.fault = none

/-- What the host does after an unsupported-opcode diagnostic, its own policy and OPEN (30_encoding.md R87; log entry 9). -/
inductive HostOnUnsupported where
  | halt
  | ignore
deriving DecidableEq, Repr

/-- The host invokes no further operation in this state. -/
def hostStops (p : HostOnUnsupported) (s : State) : Bool :=
  match p, s.answer with
  | .halt, .unsupported _ => true
  | _, _ => false

/-- At most `k` operations under a host's policy. -/
def runUnder (p : HostOnUnsupported) : Nat → State → Result
  | 0, s => .next s
  | k + 1, s =>
    if hostStops p s then .next s
    else
      match step s with
      | .next t => runUnder p k t
      | .fault r => .fault r
      | .refused r => .refused r

/-- A run of `k` operations is safe: each answers a next state, and none leaves the block faulted. -/
def SafeRun : Nat → State → Prop
  | 0, s => s.Running
  | k + 1, s => s.Running ∧ ∃ t, step s = .next t ∧ SafeRun k t

end Sys2Proof.Machine
end

