-- ==== Sys2Proof/Certificates/Slice0/Obligations.lean ====
section
/-! DEFINITION. The statements for the provers. `exec` runs on the state after the fetch, so `s.pc` in a statement about it is
the instruction's own address plus 2 (30_encoding.md R81), and `s.pc - 2` its address. -/

open Sys2Proof Sys2Proof.Machine

/-! ### Encoding -/

/-- O1. Decoding the bytes of a well-formed instruction gives it back with every operand, and the bytes after it (R83, R85).
The encoder is the model's. -/
def Obligations.DecodingAnEncodingGivesTheInstruction : Prop :=
  ∀ (i : Instr) (rest : List Byte), i.WellFormed = true → decodeBytes (encodeBytes i ++ rest) = .ok (i, rest)

/-- O2. A word that decodes to an instruction is that instruction's encoding: each supported word has one instruction (R85). -/
def Obligations.EncodingADecodedWordGivesTheWord : Prop :=
  ∀ (w : Word) (i : Instr), decodeWord w = some i → encode i = w

/-- O3 (R85). A word is decoded by the one row whose mask and match select it, and is unsupported where no row does. -/
def Obligations.DecodeFollowsTheTableRow : Prop :=
  ∀ w : Word,
    (∀ i, decodeWord w = some i → ∀ r ∈ opcodeRows, (r.selects w = true ↔ r.num = i.toRaw.row)) ∧
    (decodeWord w = none ↔ ∀ r ∈ opcodeRows, r.selects w = false)

/-- O4 (R86, without its counts). The unsupported words by major opcode. -/
def Obligations.UnsupportedWordsByMajorOpcode : Prop :=
  ∀ w : Word, decodeWord w = none ↔
    (w.toNat < 0x1000 ∧ w.toNat ≠ 0x0000 ∧ w.toNat ≠ 0x00E0 ∧ w.toNat ≠ 0x00EE) ∨
    (w.toNat / 0x1000 = 0x5 ∧ w.toNat % 16 ≠ 0) ∨
    (w.toNat / 0x1000 = 0x8 ∧ 8 ≤ w.toNat % 16 ∧ w.toNat % 16 ≠ 0xE) ∨
    (w.toNat / 0x1000 = 0x9 ∧ w.toNat % 16 ≠ 0) ∨
    (w.toNat / 0x1000 = 0xE ∧ w.toNat % 256 ≠ 0x9E ∧ w.toNat % 256 ≠ 0xA1) ∨
    (w.toNat / 0x1000 = 0xF ∧ w.toNat % 256 ∉ [0x07, 0x0A, 0x15, 0x18, 0x1E, 0x29, 0x33, 0x55, 0x65])

/-- O5 (R85). Words written out from the layouts of R83, one or more of each layout and family. -/
def Obligations.WrittenOutWordsDecodeAsTheTableSays : Prop :=
  decodeWord 0b0000000011101110#16 = some .ret ∧
  decodeWord 0b0010001000010000#16 = some (.call 0x210) ∧
  decodeWord 0b0011001100101010#16 = some (.seVxNn 3 0x2A) ∧
  decodeWord 0b1000000100100101#16 = some (.subVxVy 1 2) ∧
  decodeWord 0b1000111111111110#16 = some (.shlVxVy 15 15) ∧
  decodeWord 0b1101000100100100#16 = some (.drwVxVyN 1 2 4) ∧
  decodeWord 0b1110000110100001#16 = some (.sknpVx 1) ∧
  decodeWord 0b1111001000110011#16 = some (.ldBVx 2) ∧
  decodeWord 0b0101000100100001#16 = none

/-! ### Fetch, decode and execute -/

/-- O6 (R81). The fetch reads two bytes, high byte at the lower address, at any `PC` up to 0xFFE, and advances `PC` by 2; above
0xFFE it reads nothing, and a TICK takes FETCH_OUT_OF_RANGE there. -/
def Obligations.FetchIsBigEndianAndAdvances : Prop :=
  ∀ s : State,
    (s.pc.toNat ≤ 0xFFE → ∃ w t, fetch s = some (w, t) ∧
      w.toNat = 256 * (s.mem.byteAt s.pc.toNat).toNat + (s.mem.byteAt (s.pc.toNat + 1)).toNat ∧
      t.pc.toNat = s.pc.toNat + 2 ∧ Frame [.pc] s t) ∧
    (s.pc.toNat > 0xFFE → fetch s = none ∧
      (s.fault = none → ∀ rnd pick, ∃ t, tick rnd pick s = .next t ∧ t.answer = .fault .fetchOutOfRange ∧
        t.fault = some ⟨.fetchOutOfRange, s.pc, none, none⟩ ∧ BlockFrame [.fault] s t))

/-- O7 (R45). Where the bytes at `PC` decode to an instruction, a step of a block that is not faulted is `exec` of it, after the
fetch has moved `PC` past its word: with the inputs of the TICK the host asked for, or, where it asked for nothing, with free
inputs (the model's choice, log entries 1, 3, 4). -/
def Obligations.StepRunsTheDecodedInstruction : Prop :=
  ∀ (s : State) (i : Instr), s.fault = none → s.pc.toNat ≤ 0xFFE →
    decodeBytes [s.mem.byteAt s.pc.toNat, s.mem.byteAt (s.pc.toNat + 1)] = .ok (i, []) →
    (∀ rnd pick rest, s.pending = .tick rnd pick :: rest →
      step s = exec i { s with pc := s.pc + 2, rnd := rnd, pick := pick, ticks := s.ticks + 1, pending := rest, answer := .ok }) ∧
    (s.pending = [] →
      step s = exec i { s with pc := s.pc + 2, rnd := Config.freeRnd s.ticks, pick := Config.freePick s.ticks,
                               ticks := s.ticks + 1, answer := .ok })

/-- O8 (from R45, R87, R181, R184). What a TICK of a block that is not faulted returns and records, in the order of R184: the
fetch's fault, else the unsupported diagnostic of R87, else the fault the instruction raises (R181's table), else ok; and R181's
codes. -/
def Obligations.TickOutcomeFollowsThePriorityOrder : Prop :=
  (∀ (s : State) (rnd : Byte) (pick : Nat), s.fault = none → ∃ t, tick rnd pick s = .next t ∧
    (s.pc.toNat > 0xFFE →
      t.answer = .fault .fetchOutOfRange ∧ t.fault = some ⟨.fetchOutOfRange, s.pc, none, none⟩) ∧
    (s.pc.toNat ≤ 0xFFE → decodeWord (s.mem.wordAt s.pc.toNat) = none →
      t.answer = .unsupported (s.mem.wordAt s.pc.toNat) ∧ t.fault = none) ∧
    (∀ i c info, s.pc.toNat ≤ 0xFFE → decodeWord (s.mem.wordAt s.pc.toNat) = some i → faultRaised i s = some (c, info) →
      t.answer = .fault c ∧ t.fault = some ⟨c, s.pc, some (s.mem.wordAt s.pc.toNat), info⟩) ∧
    (∀ i, s.pc.toNat ≤ 0xFFE → decodeWord (s.mem.wordAt s.pc.toNat) = some i → faultRaised i s = none →
      t.answer = .ok ∧ t.fault = none)) ∧
  [Cause.fetchOutOfRange, .memoryOutOfRange, .stackOverflow, .stackUnderflow, .keyIndexOutOfRange].map Cause.code = [1, 2, 3, 4, 5]

/-- O9 (R87). An unsupported word ends the tick with the diagnostic: `PC` keeps the fetch's advance, nothing else changes, and
the block is not faulted. -/
def Obligations.UnsupportedWordOnlyAdvancesThePc : Prop :=
  ∀ (s : State) (rnd : Byte) (pick : Nat), s.fault = none → s.pc.toNat ≤ 0xFFE →
    decodeWord (s.mem.wordAt s.pc.toNat) = none →
    ∃ t, tick rnd pick s = .next t ∧ t.answer = .unsupported (s.mem.wordAt s.pc.toNat) ∧ t.pc = s.pc + 2 ∧ t.fault = none ∧
      BlockFrame [.pc] s t

/-- O10 (R182). A fault is precise: whichever instruction raised it, and where the fetch did, the block after the tick is the
block before it, but for `FAULT`, which records the address of the instruction and its word, none where the fetch faulted. -/
def Obligations.FaultEntryRestoresTheState : Prop :=
  ∀ (s t : State) (rnd : Byte) (pick : Nat) (f : FaultRecord), s.fault = none → tick rnd pick s = .next t → t.fault = some f →
    BlockFrame [.fault] s t ∧ f.fpc = s.pc ∧ t.answer = .fault f.cause ∧
    f.fword = (if s.pc.toNat > 0xFFE then none else some (s.mem.wordAt s.pc.toNat))

/-- O11 (R48). On a faulted block TICK returns the stored fault, TICK_TIMERS returns false, LOAD returns rejected, SET_KEY
does nothing, READ_FB reads the pixels, and none of them changes anything; RESET clears the fault. -/
def Obligations.FaultedBlockIsFrozen : Prop :=
  ∀ (s : State) (f : FaultRecord), s.fault = some f →
    (∀ rnd pick, ∃ t, perform (.tick rnd pick) s = .next t ∧ t.answer = .fault f.cause ∧ BlockFrame [] s t) ∧
    (∃ t, perform .tickTimers s = .next t ∧ t.answer = .alert false ∧ BlockFrame [] s t) ∧
    (∀ img, ∃ t, perform (.load img) s = .next t ∧ t.answer = .rejected ∧ BlockFrame [] s t) ∧
    (∀ k p, k ≤ 15 → ∃ t, perform (.setKey k p) s = .next t ∧ BlockFrame [] s t) ∧
    (∃ t, perform .readFb s = .next t ∧ t.answer = .pixels (flatPixels s.fb) ∧ BlockFrame [] s t) ∧
    (∃ t, perform .reset s = .next t ∧ t.fault = none)

/-- O12 (R183). `FAULT` keeps the first fault, and the block its state, through every step but a RESET. -/
def Obligations.FirstFaultStaysUntilReset : Prop :=
  ∀ (s t : State) (f : FaultRecord), s.fault = some f → step s = .next t →
    (t.fault = some f ∧ BlockFrame [] s t) ∨ (∃ rest, s.pending = .reset :: rest ∧ t.fault = none)

/-- O13. Every step answers a next state, but for a SET_KEY outside the host's contract, which has no transition (R44). That a
fault answers a next state is the model's choice (log entry 2). -/
def Obligations.EveryAdmittedStepAnswersANextState : Prop :=
  ∀ s : State, (∃ t, step s = .next t) ∨
    (∃ k p rest, s.pending = .setKey k p :: rest ∧ 15 < k ∧ step s = .refused (.setKeyOutsideContract k))

/-- O14 (R12). Each of the 35 instructions changes only the parts its rule names: of memory only the bytes it stores, from `I`
up (R153, R154), of the stack only the slot a CALL pushes (R28). One that faults changes nothing but `FAULT` and `PC`, which goes
back to the instruction (R182). -/
def Obligations.InstructionsWriteOnlyWhatTheirRulesName : Prop :=
  ∀ (i : Instr) (s : State), ∃ t, exec i s = .next t ∧
    (faultRaised i s = none → Frame (partsWritten i) s t ∧
      (∀ a, a < s.i.toNat ∨ s.i.toNat + bytesStored i ≤ a → t.mem.byteAt a = s.mem.byteAt a) ∧
      (∀ k : Fin 16, k.val ∉ slotsWritten i s → t.stack.get k = s.stack.get k)) ∧
    (faultRaised i s ≠ none → Frame [.pc, .fault] s t ∧ t.pc = s.pc - 2)

/-- O15 (from R24). No register outside the table is written, and none outside it is read: a change of one that is not read
changes no other part of the next state, and itself is either overwritten with the same value or kept. -/
def Obligations.NoOtherRegisterIsReadOrWritten : Prop :=
  (∀ (i : Instr) (s t : State), exec i s = .next t → ∀ r, r ∉ regsWritten i → t.reg r = s.reg r) ∧
  (∀ (i : Instr) (s : State) (r : Reg) (b : Byte), r ∉ regsRead i →
    ∃ t u, exec i s = .next t ∧ exec i (s.setReg r b) = .next u ∧ u.setReg r 0 = t.setReg r 0 ∧
      (u.reg r = t.reg r ∨ (u.reg r = b ∧ t.reg r = s.reg r)))

/-- O16. Every instruction that writes VF as a flag leaves 0 or 1 in it (R23); every other leaves VF alone unless VF is a
register it writes. -/
def Obligations.FlagsAreZeroOrOne : Prop :=
  (∀ (s : State) (x y : Reg) (n : Nibble), (s.i.toNat + n.toNat ≤ 0x1000 ∨ n = 0) →
    ∀ i ∈ flagSetting x y n, ∃ t, exec i s = .next t ∧ (t.reg VF = 0 ∨ t.reg VF = 1)) ∧
  (∀ (s : State) (i : Instr), (∀ x y n, i ∉ flagSetting x y n) → VF ∉ regsWritten i →
    ∃ t, exec i s = .next t ∧ t.reg VF = s.reg VF)

/-! ### The invariant -/

/-- O17. Every step keeps the invariant: memory canonical, `PC` at most 0x10FE (R26), no return address above 0x1000, and a
fault record that fits the state it froze (R33, R182). -/
def Obligations.EveryStepKeepsTheInvariant : Prop :=
  ∀ s t : State, Invariant s → step s = .next t → Invariant t

/-- O18. The state after reset meets the invariant. -/
def Obligations.ResetStateMeetsTheInvariant : Prop := Invariant State.reset

/-! ### Control flow -/

/-- O19 (R101, R103, R109). NOP changes nothing; JP NNN goes to NNN; JP V0, NNN goes to V0 + NNN, which does not wrap. -/
def Obligations.NopAndJumpsSetThePc : Prop :=
  ∀ (s : State) (nnn : Addr),
    (∃ t, exec .nop s = .next t ∧ t.pc = s.pc ∧ Frame [] s t) ∧
    (∃ t, exec (.jp nnn) s = .next t ∧ t.pc.toNat = nnn.toNat ∧ Frame [.pc] s t) ∧
    (∃ t, exec (.jpV0Nnn nnn) s = .next t ∧ t.pc.toNat = (s.reg 0).toNat + nnn.toNat ∧ Frame [.pc] s t)

/-- O20 (R105 to R108). The four skips move `PC` past one more word exactly where their condition holds. -/
def Obligations.SkipsFollowTheirCondition : Prop :=
  ∀ (s : State) (x y : Reg) (nn : Byte),
    (∃ t, exec (.seVxNn x nn) s = .next t ∧ Frame [.pc] s t ∧
      (s.reg x = nn → t.pc = s.pc + 2) ∧ (s.reg x ≠ nn → t.pc = s.pc)) ∧
    (∃ t, exec (.sneVxNn x nn) s = .next t ∧ Frame [.pc] s t ∧
      (s.reg x ≠ nn → t.pc = s.pc + 2) ∧ (s.reg x = nn → t.pc = s.pc)) ∧
    (∃ t, exec (.seVxVy x y) s = .next t ∧ Frame [.pc] s t ∧
      (s.reg x = s.reg y → t.pc = s.pc + 2) ∧ (s.reg x ≠ s.reg y → t.pc = s.pc)) ∧
    (∃ t, exec (.sneVxVy x y) s = .next t ∧ Frame [.pc] s t ∧
      (s.reg x ≠ s.reg y → t.pc = s.pc + 2) ∧ (s.reg x = s.reg y → t.pc = s.pc))

/-- O21 (R104). CALL pushes the address after it and goes to NNN; with 16 entries on the stack it takes STACK_OVERFLOW. -/
def Obligations.CallPushesTheReturnAddress : Prop :=
  ∀ (s : State) (nnn : Addr),
    (s.sp.val < 16 → ∃ t, exec (.call nnn) s = .next t ∧ t.pc.toNat = nnn.toNat ∧ t.sp.val = s.sp.val + 1 ∧
      (∀ k : Fin 16, t.stack.get k = if k.val = s.sp.val then s.pc else s.stack.get k) ∧ Frame [.pc, .stack] s t) ∧
    (s.sp.val = 16 → TakesFault (.call nnn) s .stackOverflow none)

/-- O22 (R102). RET goes to the popped address, keeps the slot, and moves nothing else; on an empty stack it takes
STACK_UNDERFLOW. -/
def Obligations.RetPopsTheReturnAddress : Prop :=
  ∀ s : State,
    (∀ k : Fin 16, s.sp.val = k.val + 1 → ∃ t, exec .ret s = .next t ∧ t.pc = s.stack.get k ∧ t.sp.val = k.val ∧
      t.stack = s.stack ∧ Frame [.pc, .stack] s t) ∧
    (s.sp.val = 0 → TakesFault .ret s .stackUnderflow none)

/-- O23. A RET undoes a CALL: it goes back to the address after the CALL, with the stack pointer as before (R28). -/
def Obligations.RetReturnsAfterTheCall : Prop :=
  ∀ (s : State) (nnn : Addr), s.sp.val < 16 →
    ∃ t u, exec (.call nnn) s = .next t ∧ exec .ret t = .next u ∧ u.pc = s.pc ∧ u.sp = s.sp ∧ Frame [.stack] s u

/-! ### Display -/

/-- O24 (R120). CLS makes every pixel dark and writes nothing else; a READ_FB then gives 2048 false values. -/
def Obligations.ClsDarkensEveryPixel : Prop :=
  ∀ s : State, ∃ t, exec .cls s = .next t ∧ Frame [.fb] s t ∧ (∀ x y, pixelAt t.fb x y = false) ∧
    ∃ u, perform .readFb t = .next u ∧ u.answer = .pixels (List.replicate 2048 false)

/-- O25 (R121, R122, R123). DRW flips exactly the pixels its sprite touches, wrapping on both axes, and VF says whether one of
them was lit; where a row lies above 0xFFF it takes MEMORY_OUT_OF_RANGE. With N = 0 it draws nothing, reads nothing and clears
VF. -/
def Obligations.DrwXorsTheSpriteAndReportsCollision : Prop :=
  ∀ (s : State) (x y : Reg) (n : Nibble),
    ((n = 0 ∨ s.i.toNat + n.toNat ≤ 0x1000) → ∃ t, exec (.drwVxVyN x y n) s = .next t ∧ Frame [.fb, .v VF] s t ∧
      (∀ px py, (spriteTouches s x y n px py → pixelAt t.fb px py = !pixelAt s.fb px py) ∧
        (¬ spriteTouches s x y n px py → pixelAt t.fb px py = pixelAt s.fb px py)) ∧
      ((∃ px py, spriteTouches s x y n px py ∧ pixelAt s.fb px py = true) → t.reg VF = 1) ∧
      ((¬ ∃ px py, spriteTouches s x y n px py ∧ pixelAt s.fb px py = true) → t.reg VF = 0)) ∧
    (n ≠ 0 → s.i.toNat + n.toNat > 0x1000 →
      TakesFault (.drwVxVyN x y n) s .memoryOutOfRange (some (if s.i.toNat > 0xFFF then s.i.toNat else 0x1000)))

/-- O26. Drawing the same sprite twice at the same place, with VX and VY unchanged between, restores the framebuffer; the second
draw reports a collision exactly where the sprite touches a pixel that was dark before the first, so on a dark framebuffer exactly
where it has any set bit; a draw onto a dark framebuffer reports none. (R124, with the second draw's flag as R121 and R123 give it
on every framebuffer: log entry 15.) -/
def Obligations.DrawingTwiceRestoresTheFramebuffer : Prop :=
  ∀ (s : State) (x y : Reg) (n : Nibble), (n = 0 ∨ s.i.toNat + n.toNat ≤ 0x1000) →
    ∃ t, exec (.drwVxVyN x y n) s = .next t ∧
      ((∀ px py, pixelAt s.fb px py = false) → t.reg VF = 0) ∧
      (t.reg x = s.reg x → t.reg y = s.reg y →
        ∃ u, exec (.drwVxVyN x y n) t = .next u ∧ u.fb = s.fb ∧ (u.reg VF = 0 ∨ u.reg VF = 1) ∧
          (u.reg VF = 1 ↔ ∃ px py, spriteTouches s x y n px py ∧ pixelAt s.fb px py = false) ∧
          ((∀ px py, pixelAt s.fb px py = false) →
            (u.reg VF = 1 ↔ ∃ r < n.toNat, ∃ c < 8, (s.mem.byteAt (s.i.toNat + r)).getLsbD c = true)))

/-! ### Registers and arithmetic -/

/-- O27 (R131 to R136). The loads, the immediate add and the logic write VX and nothing else, VF only as VX. -/
def Obligations.LoadsAddsAndLogicWriteOnlyVx : Prop :=
  ∀ (s : State) (x y : Reg) (nn : Byte),
    (∃ t, exec (.ldVxNn x nn) s = .next t ∧ t.reg x = nn ∧ Frame [.v x] s t) ∧
    (∃ t, exec (.addVxNn x nn) s = .next t ∧ (t.reg x).toNat = ((s.reg x).toNat + nn.toNat) % 256 ∧ Frame [.v x] s t) ∧
    (∃ t, exec (.ldVxVy x y) s = .next t ∧ t.reg x = s.reg y ∧ Frame [.v x] s t) ∧
    (∃ t, exec (.orVxVy x y) s = .next t ∧ (∀ k, (t.reg x).getLsbD k = ((s.reg x).getLsbD k || (s.reg y).getLsbD k)) ∧
      Frame [.v x] s t) ∧
    (∃ t, exec (.andVxVy x y) s = .next t ∧ (∀ k, (t.reg x).getLsbD k = ((s.reg x).getLsbD k && (s.reg y).getLsbD k)) ∧
      Frame [.v x] s t) ∧
    (∃ t, exec (.xorVxVy x y) s = .next t ∧ (∀ k, (t.reg x).getLsbD k = ((s.reg x).getLsbD k ^^ (s.reg y).getLsbD k)) ∧
      Frame [.v x] s t)

/-- O28 (R137, R138, R140). ADD, SUB and SUBN: the result modulo 256 in VX, then the carry or the absence of a borrow in VF,
which remains where VX is VF. -/
def Obligations.AddSubSubnResultAndFlag : Prop :=
  ∀ (s : State) (x y : Reg),
    (∃ t, exec (.addVxVy x y) s = .next t ∧ Frame [.v x, .v VF] s t ∧
      (x ≠ VF → (t.reg x).toNat = ((s.reg x).toNat + (s.reg y).toNat) % 256) ∧
      (t.reg VF).toNat = if (s.reg x).toNat + (s.reg y).toNat > 255 then 1 else 0) ∧
    (∃ t, exec (.subVxVy x y) s = .next t ∧ Frame [.v x, .v VF] s t ∧
      (x ≠ VF → ((t.reg x).toNat : Int) = (((s.reg x).toNat : Int) - ((s.reg y).toNat : Int)) % 256) ∧
      (t.reg VF).toNat = if (s.reg x).toNat < (s.reg y).toNat then 0 else 1) ∧
    (∃ t, exec (.subnVxVy x y) s = .next t ∧ Frame [.v x, .v VF] s t ∧
      (x ≠ VF → ((t.reg x).toNat : Int) = (((s.reg y).toNat : Int) - ((s.reg x).toNat : Int)) % 256) ∧
      (t.reg VF).toNat = if (s.reg y).toNat < (s.reg x).toNat then 0 else 1)

/-- O29 (R139, R141). SHR and SHL shift VX by one place, whatever Y names, then put the bit shifted out in VF, which remains
where VX is VF. -/
def Obligations.ShiftsResultAndFlag : Prop :=
  ∀ (s : State) (x y : Reg),
    (∃ t, exec (.shrVxVy x y) s = .next t ∧ Frame [.v x, .v VF] s t ∧
      (x ≠ VF → (t.reg x).toNat = (s.reg x).toNat / 2) ∧ (t.reg VF).toNat = (s.reg x).toNat % 2) ∧
    (∃ t, exec (.shlVxVy x y) s = .next t ∧ Frame [.v x, .v VF] s t ∧
      (x ≠ VF → (t.reg x).toNat = 2 * (s.reg x).toNat % 256) ∧ (t.reg VF).toNat = (s.reg x).toNat / 128)

/-- O30 (R142). RND leaves in VX the bits of the tick's random byte that the mask keeps, whichever of the 256 values the byte
has: `s.rnd` is any byte. -/
def Obligations.RndMasksTheRandomByte : Prop :=
  ∀ (s : State) (x : Reg) (nn : Byte),
    ∃ t, exec (.rndVxNn x nn) s = .next t ∧ (∀ k, (t.reg x).getLsbD k = (s.rnd.getLsbD k && nn.getLsbD k)) ∧ Frame [.v x] s t

/-! ### Index and memory -/

/-- O31 (R150, R151, R152). The three writes of `I`: the address, the 16-bit sum, five times the unmasked digit. -/
def Obligations.IndexInstructionsSetI : Prop :=
  ∀ (s : State) (x : Reg) (nnn : Addr),
    (∃ t, exec (.ldINnn nnn) s = .next t ∧ t.i.toNat = nnn.toNat ∧ Frame [.i] s t) ∧
    (∃ t, exec (.addIVx x) s = .next t ∧ t.i.toNat = (s.i.toNat + (s.reg x).toNat) % 65536 ∧ Frame [.i] s t) ∧
    (∃ t, exec (.ldFVx x) s = .next t ∧ t.i.toNat = (s.reg x).toNat * 5 ∧ Frame [.i] s t)

/-- O32 (R153). LD B stores the hundreds, tens and ones of VX at `I`, `I+1`, `I+2` and changes no other byte; where one lies
above 0xFFF it takes MEMORY_OUT_OF_RANGE and stores nothing. -/
def Obligations.LdBStoresTheDecimalDigits : Prop :=
  ∀ (s : State) (x : Reg),
    (s.i.toNat + 2 ≤ 0xFFF → ∃ t, exec (.ldBVx x) s = .next t ∧ Frame [.mem] s t ∧
      (t.mem.byteAt s.i.toNat).toNat = (s.reg x).toNat / 100 ∧
      (t.mem.byteAt (s.i.toNat + 1)).toNat = (s.reg x).toNat / 10 % 10 ∧
      (t.mem.byteAt (s.i.toNat + 2)).toNat = (s.reg x).toNat % 10 ∧
      (∀ a, a < s.i.toNat ∨ s.i.toNat + 2 < a → t.mem.byteAt a = s.mem.byteAt a)) ∧
    (s.i.toNat + 2 > 0xFFF →
      TakesFault (.ldBVx x) s .memoryOutOfRange (some (if s.i.toNat > 0xFFF then s.i.toNat else 0x1000)))

/-- O33 (R154). LD [I], VX stores V0..VX from `I` up, keeps `I`, and changes no other byte; where one lies above 0xFFF it takes
MEMORY_OUT_OF_RANGE and stores nothing. -/
def Obligations.LdMemStoresTheRegisters : Prop :=
  ∀ (s : State) (x : Reg),
    (s.i.toNat + x.val ≤ 0xFFF → ∃ t, exec (.ldMemVx x) s = .next t ∧ Frame [.mem] s t ∧
      (∀ k : Reg, k.val ≤ x.val → t.mem.byteAt (s.i.toNat + k.val) = s.reg k) ∧
      (∀ a, a < s.i.toNat ∨ s.i.toNat + x.val < a → t.mem.byteAt a = s.mem.byteAt a)) ∧
    (s.i.toNat + x.val > 0xFFF →
      TakesFault (.ldMemVx x) s .memoryOutOfRange (some (if s.i.toNat > 0xFFF then s.i.toNat else 0x1000)))

/-- O34 (R155). LD VX, [I] loads V0..VX from `I` up, keeps `I` and the other registers; where a byte lies above 0xFFF it takes
MEMORY_OUT_OF_RANGE and loads nothing. -/
def Obligations.LdVxMemLoadsTheRegisters : Prop :=
  ∀ (s : State) (x : Reg),
    (s.i.toNat + x.val ≤ 0xFFF → ∃ t, exec (.ldVxMem x) s = .next t ∧
      Frame ((regRange x).map Part.v) s t ∧
      (∀ k : Reg, k.val ≤ x.val → t.reg k = s.mem.byteAt (s.i.toNat + k.val)) ∧
      (∀ k : Reg, x.val < k.val → t.reg k = s.reg k)) ∧
    (s.i.toNat + x.val > 0xFFF →
      TakesFault (.ldVxMem x) s .memoryOutOfRange (some (if s.i.toNat > 0xFFF then s.i.toNat else 0x1000)))

/-- O35. Bytes that FX33 or FX55 stores, and bytes a LOAD writes, are what the very next fetch reads, at every address a word
can be fetched from: both bytes of the word stored, or one of them, or none (R74). -/
def Obligations.StoredBytesAreFetched : Prop :=
  (∀ (s : State) (x : Reg) (a : Nat), s.i.toNat + 2 ≤ 0xFFF → a ≤ 0xFFE →
    let byte := byteWithStored s.mem s.i.toNat
      [BitVec.ofNat 8 ((s.reg x).toNat / 100), BitVec.ofNat 8 ((s.reg x).toNat / 10 % 10), BitVec.ofNat 8 ((s.reg x).toNat % 10)]
    ∃ t u, exec (.ldBVx x) s = .next t ∧ fetch (t.setPc (BitVec.ofNat 16 a)) = some (byte a ++ byte (a + 1), u)) ∧
  (∀ (s : State) (x : Reg) (a : Nat), s.i.toNat + x.val ≤ 0xFFF → a ≤ 0xFFE →
    let byte := byteWithStored s.mem s.i.toNat ((regRange x).map s.reg)
    ∃ t u, exec (.ldMemVx x) s = .next t ∧ fetch (t.setPc (BitVec.ofNat 16 a)) = some (byte a ++ byte (a + 1), u)) ∧
  (∀ (s : State) (img : List Byte) (a : Nat), s.fault = none → img.length ≤ 3584 → a ≤ 0xFFE →
    let byte := byteWithStored s.mem 0x200 img
    ∃ t u, perform (.load img) s = .next t ∧ fetch (t.setPc (BitVec.ofNat 16 a)) = some (byte a ++ byte (a + 1), u))

/-- O36. Memories in canonical form that agree on `FONT` and read the same everywhere are the same data. The form is the
model's (log entry 11). -/
def Obligations.CanonicalMemoriesThatReadAlikeAreEqual : Prop :=
  ∀ m l : Memory, m.wf → l.wf → m.font = l.font → (∀ a < 4096, m.byteAt a = l.byteAt a) → m = l

/-! ### Keys and timers -/

/-- O37 (R165, R166). SKP and SKNP test the level of the key VX names; where VX is above 15 they take
KEY_INDEX_OUT_OF_RANGE. -/
def Obligations.KeySkipsTestTheKey : Prop :=
  ∀ (s : State) (x : Reg),
    (∀ k : Reg, (s.reg x).toNat = k.val →
      (∃ t, exec (.skpVx x) s = .next t ∧ Frame [.pc] s t ∧
        (s.key.get k = true → t.pc = s.pc + 2) ∧ (s.key.get k = false → t.pc = s.pc)) ∧
      (∃ t, exec (.sknpVx x) s = .next t ∧ Frame [.pc] s t ∧
        (s.key.get k = false → t.pc = s.pc + 2) ∧ (s.key.get k = true → t.pc = s.pc))) ∧
    ((s.reg x).toNat > 15 →
      TakesFault (.skpVx x) s .keyIndexOutOfRange (some (s.reg x).toNat) ∧
      TakesFault (.sknpVx x) s .keyIndexOutOfRange (some (s.reg x).toNat))

/-- O38 (R168). LD VX, K: with no key pressed `PC` goes back by 2 and nothing else changes; with keys pressed VX becomes one of
them; and each of them is the one for some choice of `KEY_SELECT`. -/
def Obligations.KeyWaitPollsOrTakesAPressedKey : Prop :=
  ∀ (s : State) (x : Reg),
    ((∀ k : Reg, s.key.get k = false) → ∃ t, exec (.ldVxK x) s = .next t ∧ t.pc = s.pc - 2 ∧ Frame [.pc] s t) ∧
    (∀ k : Reg, s.key.get k = true →
      (∃ t, exec (.ldVxK x) s = .next t ∧ Frame [.v x] s t ∧ ∃ j : Reg, s.key.get j = true ∧ (t.reg x).toNat = j.val) ∧
      (∃ pick t, exec (.ldVxK x) { s with pick := pick } = .next t ∧ (t.reg x).toNat = k.val))

/-- O39. A waiting tick of FX0A leaves every piece of the block's state unchanged: the fetch adds 2 to `PC` and the rewind takes
it away (R168). -/
def Obligations.WaitingTickChangesNothing : Prop :=
  ∀ (s : State) (x : Reg) (rnd : Byte) (pick : Nat), s.fault = none → s.pc.toNat ≤ 0xFFE →
    decodeWord (s.mem.wordAt s.pc.toNat) = some (.ldVxK x) → (∀ k : Reg, s.key.get k = false) →
    ∃ t, tick rnd pick s = .next t ∧ t.answer = .ok ∧ BlockFrame [] s t

/-- O40 (R167, R169, R170). The timer reads and writes; none emits the alert (`answer` is as it was), and the timer tick after
LD ST, VX emits it exactly where VX was 1. -/
def Obligations.TimerInstructionsMoveTheTimers : Prop :=
  ∀ (s : State) (x : Reg),
    (∃ t, exec (.ldVxDt x) s = .next t ∧ t.reg x = s.dt ∧ Frame [.v x] s t) ∧
    (∃ t, exec (.ldDtVx x) s = .next t ∧ t.dt = s.reg x ∧ Frame [.dt] s t) ∧
    (∃ t, exec (.ldStVx x) s = .next t ∧ t.st = s.reg x ∧ Frame [.st] s t ∧
      (s.fault = none → ∃ u, perform .tickTimers t = .next u ∧ u.answer = .alert (decide ((s.reg x).toNat = 1))))

/-! ### The host's operations -/

/-- O41 (R187). TICK_TIMERS counts both timers down by one, each stopping at 0, returns the alert exactly where `ST` was 1, and
changes nothing else; on a faulted block it returns false and changes nothing. -/
def Obligations.TickTimersCountDownToZero : Prop :=
  ∀ s : State,
    (s.fault = none → ∃ t, perform .tickTimers s = .next t ∧ t.dt.toNat = s.dt.toNat - 1 ∧ t.st.toNat = s.st.toNat - 1 ∧
      t.answer = .alert (decide (s.st.toNat = 1)) ∧ BlockFrame [.dt, .st] s t) ∧
    (s.fault ≠ none → ∃ t, perform .tickTimers s = .next t ∧ t.answer = .alert false ∧ BlockFrame [] s t)

/-- O42. With `ST = n` and only timer ticks after it, the alert comes at the `n`-th tick and at no other (R188). -/
def Obligations.AlertComesExactlyAtTheNthTimerTick : Prop :=
  ∀ (s : State) (k : Nat), s.fault = none → (tickTimers^[k + 1] s).answer = .alert (decide (s.st.toNat = k + 1))

/-- O43 (R200). RESET, from every state, gives every item of the block its reset value, for whatever `FONT` the machine has.
(That it keeps the model's own inputs is the model's choice, log entries 3, 4.) -/
def Obligations.ResetGivesEveryItemItsResetValue : Prop :=
  ∀ s : State, ∃ t, perform .reset s = .next t ∧ t.answer = .nothing ∧
    (∀ a : Fin 80, t.mem.byteAt a.val = s.mem.font.get a) ∧ (∀ a, 80 ≤ a → t.mem.byteAt a = 0) ∧
    (∀ r, t.reg r = 0) ∧ t.i = 0 ∧ t.pc = 0x200 ∧ (∀ k : Fin 16, t.stack.get k = 0) ∧ t.sp = 0 ∧ t.dt = 0 ∧ t.st = 0 ∧
    (∀ k : Reg, t.key.get k = false) ∧ (∀ x y, pixelAt t.fb x y = false) ∧ t.fault = none ∧ t.mem.font = s.mem.font

/-- O44 (R43). LOAD writes the image from 0x200 and nothing else; an image of more than 3584 bytes, or a faulted block, is
rejected and nothing changes. -/
def Obligations.LoadWritesTheImageOrRejects : Prop :=
  ∀ (s : State) (img : List Byte),
    (s.fault = none → img.length ≤ 3584 → ∃ t, perform (.load img) s = .next t ∧ t.answer = .ok ∧ BlockFrame [.mem] s t ∧
      (∀ (k : Nat) (b : Byte), img[k]? = some b → t.mem.byteAt (0x200 + k) = b) ∧
      (∀ a, a < 0x200 ∨ 0x200 + img.length ≤ a → t.mem.byteAt a = s.mem.byteAt a)) ∧
    ((s.fault ≠ none ∨ img.length > 3584) → ∃ t, perform (.load img) s = .next t ∧ t.answer = .rejected ∧ BlockFrame [] s t)

/-- O45 (R44). SET_KEY sets its key and no other part of the block; on a faulted block it does nothing; a key above 15 has no
transition. -/
def Obligations.SetKeySetsOneKey : Prop :=
  ∀ (s : State) (p : Bool),
    (∀ k : Reg, s.fault = none → ∃ t, perform (.setKey k.val p) s = .next t ∧ BlockFrame [.key] s t ∧
      ∀ j : Reg, t.key.get j = if j = k then p else s.key.get j) ∧
    (∀ k : Reg, s.fault ≠ none → ∃ t, perform (.setKey k.val p) s = .next t ∧ BlockFrame [] s t) ∧
    (∀ k : Nat, 15 < k → perform (.setKey k p) s = .refused (.setKeyOutsideContract k))

/-- O46 (R47). READ_FB returns 2048 pixels, element `x + 64*y` being `FB[x, y]`, in every state, and writes nothing. -/
def Obligations.ReadFbIsRowMajor : Prop :=
  ∀ s : State, ∃ t ps, perform .readFb s = .next t ∧ t.answer = .pixels ps ∧ BlockFrame [] s t ∧ ps.length = 2048 ∧
    ∀ (x : Fin 64) (y : Fin 32), ps[x.val + 64 * y.val]? = some (pixelAt s.fb x y)

/-! ### The sprite's bits, counted -/

/-- O47. No pixel is touched twice in one draw: the pixels of distinct set bits are distinct; and a draw changes the number of lit
pixels by the set bits that fall on dark pixels less those that fall on lit ones (from R121 and R124). -/
def Obligations.DrawTouchesEachPixelOnceAndCountsLitPixels : Prop :=
  ∀ (s : State) (x y : Reg) (n : Nibble),
    (∀ r < n.toNat, ∀ r' < n.toNat, ∀ c < 8, ∀ c' < 8,
      ((s.reg x).toNat + c) % 64 = ((s.reg x).toNat + c') % 64 → ((s.reg y).toNat + r) % 32 = ((s.reg y).toNat + r') % 32 →
      r = r' ∧ c = c') ∧
    ((n = 0 ∨ s.i.toNat + n.toNat ≤ 0x1000) → ∃ t, exec (.drwVxVyN x y n) s = .next t ∧
      litCount t.fb + spriteBitsOn s x y n true = litCount s.fb + spriteBitsOn s x y n false)
end

