-- ==== Sys2Proof/Laws/Display.lean ====
section
/-! SUPPORT. What the framebuffer operations and the sprite compositor do, pixel by pixel (41_display.md R121 to R124). -/

namespace Sys2Proof.Machine

/-- A flip changes its own pixel and no other. -/
theorem pixelAt_flipPixel (fb : Framebuffer) (x u : Fin 64) (y v : Fin 32) :
    pixelAt (flipPixel fb x y) u v = if u = x ∧ v = y then !pixelAt fb x y else pixelAt fb u v := by
  simp only [pixelAt, flipPixel, Vector.get_eq_getElem, Vector.getElem_set]
  by_cases hv : v = y
  · subst hv
    simp only [if_true, Vector.getElem_set]
    by_cases hu : u = x
    · subst hu; simp
    · have : x.val ≠ u.val := fun h => hu (Fin.ext h.symm)
      simp [hu, this]
  · have : y.val ≠ v.val := fun h => hv (Fin.ext h.symm)
    simp [hv, this]

@[simp] theorem pixelAt_dark (x : Fin 64) (y : Fin 32) : pixelAt darkFramebuffer x y = false := by
  simp [pixelAt, darkFramebuffer, Vector.get_eq_getElem]

/-- Two framebuffers with the same pixels are one framebuffer. -/
theorem framebuffer_ext {f g : Framebuffer} (h : ∀ x y, pixelAt f x y = pixelAt g x y) : f = g := by
  apply Vector.ext
  intro y hy
  apply Vector.ext
  intro x hx
  simpa [pixelAt, Vector.get_eq_getElem] using h ⟨x, hx⟩ ⟨y, hy⟩

/-- A pixel flipped twice is as it was. -/
theorem flipPixel_flipPixel (fb : Framebuffer) (x : Fin 64) (y : Fin 32) : flipPixel (flipPixel fb x y) x y = fb := by
  apply framebuffer_ext
  intro u v
  simp only [pixelAt_flipPixel]
  by_cases h : u = x ∧ v = y
  · simp [h.1, h.2]
  · rw [if_neg h, if_neg h]

/-- Touching pixels that are all distinct flips exactly those, and reports a hit exactly where one of them was lit. -/
theorem touchPixels_spec (ps : List (Fin 64 × Fin 32)) (hn : ps.Nodup) (fb : Framebuffer) (hit : Bool) :
    (∀ x y, pixelAt (ps.foldl touchPixel (fb, hit)).1 x y = if (x, y) ∈ ps then !pixelAt fb x y else pixelAt fb x y) ∧
    ((ps.foldl touchPixel (fb, hit)).2 = true ↔ hit = true ∨ ∃ p ∈ ps, pixelAt fb p.1 p.2 = true) := by
  induction ps generalizing fb hit with
  | nil => simp
  | cons p t ih =>
    obtain ⟨hp, ht⟩ := List.nodup_cons.mp hn
    obtain ⟨h1, h2⟩ := ih ht (flipPixel fb p.1 p.2) (hit || pixelAt fb p.1 p.2)
    have hne : ∀ q ∈ t, ¬ (q.1 = p.1 ∧ q.2 = p.2) := fun q hq h => hp (by rwa [← Prod.ext h.1 h.2])
    constructor
    · intro x y
      rw [List.foldl_cons, touchPixel, h1, pixelAt_flipPixel]
      by_cases hxy : (x, y) = p
      · subst hxy
        simp [hp]
      · have : ¬ (x = p.1 ∧ y = p.2) := fun h => hxy (Prod.ext h.1 h.2)
        simp [this, hxy]
    · rw [List.foldl_cons, touchPixel, h2]
      simp only [Bool.or_eq_true, List.mem_cons, exists_eq_or_imp, or_assoc]
      refine or_congr Iff.rfl (or_congr Iff.rfl ?_)
      constructor
      · rintro ⟨q, hq, h⟩
        rw [pixelAt_flipPixel, if_neg (hne q hq)] at h
        exact ⟨q, hq, h⟩
      · rintro ⟨q, hq, h⟩
        refine ⟨q, hq, ?_⟩
        rwa [pixelAt_flipPixel, if_neg (hne q hq)]

/-- The framebuffer after a draw of distinct pixels. -/
theorem pixelAt_drawPixels {ps : List (Fin 64 × Fin 32)} (hn : ps.Nodup) (fb : Framebuffer) (x : Fin 64) (y : Fin 32) :
    pixelAt (drawPixels fb ps).1 x y = if (x, y) ∈ ps then !pixelAt fb x y else pixelAt fb x y :=
  (touchPixels_spec ps hn fb false).1 x y

/-- The collision flag is the OR over the touched pixels, whatever their order (41_display.md R123). -/
theorem drawPixels_hit {ps : List (Fin 64 × Fin 32)} (hn : ps.Nodup) (fb : Framebuffer) :
    (drawPixels fb ps).2 = true ↔ ∃ p ∈ ps, pixelAt fb p.1 p.2 = true := by
  simpa [drawPixels] using (touchPixels_spec ps hn fb false).2

theorem mem_rowPixels {x0 py : Nat} {row : Byte} {p : Fin 64 × Fin 32} :
    p ∈ rowPixels x0 py row ↔ ∃ c < 8, spriteBit row c = true ∧ p.1.val = (x0 + c) % 64 ∧ p.2.val = py % 32 := by
  simp only [rowPixels, List.mem_map, List.mem_filter, List.mem_range, wrapPixel]
  constructor
  · rintro ⟨c, ⟨hc, hb⟩, rfl⟩
    exact ⟨c, hc, hb, rfl, rfl⟩
  · rintro ⟨c, hc, hb, h1, h2⟩
    exact ⟨c, ⟨hc, hb⟩, Prod.ext (Fin.ext (by simp [h1])) (Fin.ext (by simp [h2]))⟩

/-- The pixels a sprite touches: set bit `c` of row `r` touches `((x0 + c) mod 64, (py + r) mod 32)` (41_display.md R121). -/
theorem mem_spritePixels {x0 py : Nat} {rows : List Byte} {p : Fin 64 × Fin 32} :
    p ∈ spritePixels x0 py rows ↔
      ∃ r, ∃ h : r < rows.length, ∃ c < 8,
        spriteBit rows[r] c = true ∧ p.1.val = (x0 + c) % 64 ∧ p.2.val = (py + r) % 32 := by
  induction rows generalizing py with
  | nil => simp [spritePixels]
  | cons row t ih =>
    rw [spritePixels, List.mem_append, mem_rowPixels, ih]
    constructor
    · rintro (⟨c, hc, hb, h1, h2⟩ | ⟨r, hr, c, hc, hb, h1, h2⟩)
      · exact ⟨0, by simp, c, hc, by simpa using hb, h1, by simpa using h2⟩
      · exact ⟨r + 1, by simpa using hr, c, hc, by simpa using hb, h1, by rw [h2]; congr 1; omega⟩
    · rintro ⟨r, hr, c, hc, hb, h1, h2⟩
      cases r with
      | zero => exact .inl ⟨c, hc, by simpa using hb, h1, by simpa using h2⟩
      | succ r =>
        exact .inr ⟨r, by simpa using hr, c, hc, by simpa using hb, h1, by rw [h2]; congr 1; omega⟩

theorem nodup_rowPixels (x0 py : Nat) (row : Byte) : (rowPixels x0 py row).Nodup := by
  refine List.Nodup.map_on ?_ (List.Nodup.filter _ List.nodup_range)
  intro c hc d hd h
  have hc8 : c < 8 := List.mem_range.mp (List.mem_filter.mp hc).1
  have hd8 : d < 8 := List.mem_range.mp (List.mem_filter.mp hd).1
  have := congrArg (fun p => p.1.val) h
  simp only [wrapPixel, Fin.val_ofNat] at this
  omega

/-- No pixel is touched twice in one draw: a sprite is 8 columns wide and at most 15 rows tall (41_display.md R124). -/
theorem nodup_spritePixels (x0 py : Nat) (rows : List Byte) (h : rows.length ≤ 32) : (spritePixels x0 py rows).Nodup := by
  induction rows generalizing py with
  | nil => simp [spritePixels]
  | cons row t ih =>
    simp only [List.length_cons] at h
    rw [spritePixels]
    refine List.Nodup.append (nodup_rowPixels _ _ _) (ih (py + 1) (by omega)) ?_
    intro p hp hq
    obtain ⟨c, _, _, _, h2⟩ := mem_rowPixels.mp hp
    obtain ⟨r, hr, d, _, _, _, h4⟩ := mem_spritePixels.mp hq
    omega

end Sys2Proof.Machine
end

