-- ==== Sys2Proof/Laws/Encoding.lean ====
section
/-! SUPPORT. Well-formedness of every term of `Instr`, the fields of an assembled word, and the word that fields make up. -/

namespace Sys2Proof

theorem Byte.toNat_lt (b : Byte) : b.toNat < 256 := b.isLt
theorem Nibble.toNat_lt (b : Nibble) : b.toNat < 16 := b.isLt
theorem Addr.toNat_lt (b : Addr) : b.toNat < 4096 := b.isLt
theorem Word.toNat_lt (b : Word) : b.toNat < 65536 := b.isLt

/-- Every instruction is well formed, by the types of its operands (30_encoding.md R82, R84). -/
@[simp] theorem Instr.wellFormed_all (i : Instr) : i.WellFormed = true := by
  cases i <;>
    simp [Instr.WellFormed, Instr.toRaw, RawInstr.wellFormed, RawInstr.rowOk, RawInstr.xOk, RawInstr.yOk, RawInstr.nOk,
      RawInstr.nnOk, RawInstr.nnnOk, Byte.toNat_lt, Nibble.toNat_lt, Addr.toNat_lt]

/-- The numbers of an instruction give it back. -/
theorem RawInstr.toInstr_toRaw (i : Instr) : i.toRaw.toInstr = some i := by
  have h : i.toRaw.wellFormed = true := i.wellFormed_all
  unfold RawInstr.toInstr
  rw [if_pos h]
  cases i <;> simp [Instr.toRaw]

/-! ### The fields of a layout (R83) -/

theorem extract_high {v k : Nat} (a : BitVec v) (b : BitVec k) : (a ++ b).extractLsb' k v = a := by
  apply BitVec.eq_of_getLsbD_eq
  intro j hj
  have : ¬ k + j < k := by omega
  simp [BitVec.getLsbD_append, hj, this]

theorem extract_below {v k i l : Nat} (a : BitVec v) (b : BitVec k) (h : i + l ≤ k) :
    (a ++ b).extractLsb' i l = b.extractLsb' i l := by
  apply BitVec.eq_of_getLsbD_eq
  intro j hj
  have : i + j < k := by omega
  simp [BitVec.getLsbD_append, hj, this]

theorem extract_low {v k : Nat} (a : BitVec v) (b : BitVec k) : (a ++ b).extractLsb' 0 k = b := by
  rw [extract_below a b (by omega)]
  apply BitVec.eq_of_getLsbD_eq
  intro j hj
  simp [hj]

section Fields
variable (op n : Nibble) (x y : Reg) (nn : Byte) (nnn : Addr)

@[simp] theorem fieldB1_layoutNNN : fieldB1 (layoutNNN op nnn) = op := extract_high op nnn
@[simp] theorem fieldNNN_layoutNNN : fieldNNN (layoutNNN op nnn) = nnn := extract_low op nnn
@[simp] theorem fieldB1_layoutXNN : fieldB1 (layoutXNN op x nn) = op := extract_high op (regField x ++ nn)
@[simp] theorem fieldX_layoutXNN : fieldX (layoutXNN op x nn) = x :=
  congrArg BitVec.toFin ((extract_below op (regField x ++ nn) (i := 8) (l := 4) (by omega)).trans (extract_high _ nn))
@[simp] theorem fieldNN_layoutXNN : fieldNN (layoutXNN op x nn) = nn :=
  (extract_below op (regField x ++ nn) (i := 0) (l := 8) (by omega)).trans (extract_low _ nn)
@[simp] theorem fieldB1_layoutXSS : fieldB1 (layoutXSS op x nn) = op := fieldB1_layoutXNN op x nn
@[simp] theorem fieldX_layoutXSS : fieldX (layoutXSS op x nn) = x := fieldX_layoutXNN op x nn
@[simp] theorem fieldNN_layoutXSS : fieldNN (layoutXSS op x nn) = nn := fieldNN_layoutXNN op x nn
@[simp] theorem fieldB1_layoutXYN : fieldB1 (layoutXYN op x y n) = op := fieldB1_layoutXNN op x (regField y ++ n)
@[simp] theorem fieldX_layoutXYN : fieldX (layoutXYN op x y n) = x := fieldX_layoutXNN op x (regField y ++ n)
@[simp] theorem fieldY_layoutXYN : fieldY (layoutXYN op x y n) = y :=
  congrArg BitVec.toFin ((extract_below op (regField x ++ (regField y ++ n)) (i := 4) (l := 4) (by omega)).trans
    ((extract_below (regField x) (regField y ++ n) (i := 4) (l := 4) (by omega)).trans (extract_high _ n)))
@[simp] theorem fieldN_layoutXYN : fieldN (layoutXYN op x y n) = n :=
  (extract_below op (regField x ++ (regField y ++ n)) (i := 0) (l := 4) (by omega)).trans
    ((extract_below (regField x) (regField y ++ n) (i := 0) (l := 4) (by omega)).trans (extract_low _ n))

end Fields

/-! ### A word is made up of its fields (R82) -/

theorem extract_append {l k : Nat} (w : Word) (i : Nat) :
    w.extractLsb' (i + k) l ++ w.extractLsb' i k = w.extractLsb' i (l + k) := by
  apply BitVec.eq_of_getLsbD_eq
  intro j hj
  simp only [BitVec.getLsbD_append, BitVec.getLsbD_extractLsb']
  by_cases h : j < k
  · have : j < l + k := by omega
    simp [h, this]
  · have h1 : j - k < l := by omega
    have h2 : i + k + (j - k) = i + j := by omega
    simp [h, h1, h2, hj]

theorem extract_all (w : Word) : w.extractLsb' 0 16 = w := by
  apply BitVec.eq_of_getLsbD_eq
  intro j hj
  simp [hj]

theorem word_eq_layoutNNN (w : Word) : layoutNNN (fieldB1 w) (fieldNNN w) = w :=
  (extract_append (l := 4) (k := 12) w 0).trans (extract_all w)

theorem word_eq_layoutXNN (w : Word) : layoutXNN (fieldB1 w) (fieldX w) (fieldNN w) = w := by
  have h : regField (fieldX w) ++ fieldNN w = fieldNNN w := extract_append (l := 4) (k := 8) w 0
  rw [layoutXNN, h]
  exact word_eq_layoutNNN w

theorem word_eq_layoutXSS (w : Word) : layoutXSS (fieldB1 w) (fieldX w) (fieldNN w) = w := word_eq_layoutXNN w

theorem word_eq_layoutXYN (w : Word) : layoutXYN (fieldB1 w) (fieldX w) (fieldY w) (fieldN w) = w := by
  have h : regField (fieldY w) ++ fieldN w = fieldNN w := extract_append (l := 4) (k := 4) w 0
  rw [layoutXYN, h]
  exact word_eq_layoutXNN w

/-- The two bytes of a word, high byte first, make up the word (20_memory.md R64). -/
theorem wordBytes_append (w : Word) : w.extractLsb' 8 8 ++ w.extractLsb' 0 8 = w :=
  (extract_append (l := 8) (k := 8) w 0).trans (extract_all w)

end Sys2Proof
end

