-- ==== Sys2Proof/Laws/Memory.lean ====
section
/-! SUPPORT. What the memory operations do: reads after writes, the canonical form and that every operation keeps it, and what
the multi-byte accesses answer (20_memory.md R63 to R69). -/

namespace Sys2Proof.Machine

/-! ### The list of cells -/

@[simp] theorem lookup_insertCell (l : List Host.Cell) (a b : Nat) (v : Byte) :
    lookupCell (insertCell a v l) b = if a = b then some v else lookupCell l b := by
  induction l with
  | nil => simp [insertCell, lookupCell]
  | cons c t ih =>
    obtain ⟨k, w⟩ := c
    by_cases h1 : a < k
    · simp [insertCell, lookupCell, h1]
    · by_cases h2 : a = k
      · subst h2
        by_cases h3 : a = b <;> simp [insertCell, lookupCell, h3]
      · simp only [insertCell, h1, h2, if_false, lookupCell, ih]
        by_cases h3 : k = b
        · have : a ≠ b := by omega
          simp [h3, this]
        · simp [h3]

@[simp] theorem lookup_eraseCell (l : List Host.Cell) (a b : Nat) :
    lookupCell (eraseCell a l) b = if a = b then none else lookupCell l b := by
  induction l with
  | nil => simp [eraseCell, lookupCell]
  | cons c t ih =>
    obtain ⟨k, w⟩ := c
    by_cases h2 : a = k
    · subst h2
      by_cases h3 : a = b
      · subst h3; simp [eraseCell, ih]
      · simp [eraseCell, lookupCell, ih, h3]
    · by_cases h3 : k = b
      · have : a ≠ b := by omega
        simp [eraseCell, lookupCell, h3, this]
      · simp [eraseCell, lookupCell, h2, h3, ih]

theorem mem_insertCell {l : List Host.Cell} {a : Nat} {v : Byte} {c : Host.Cell} (h : c ∈ insertCell a v l) :
    c = (a, v) ∨ c ∈ l := by
  induction l with
  | nil => simpa [insertCell] using h
  | cons d t ih =>
    obtain ⟨k, w⟩ := d
    simp only [insertCell] at h
    split at h
    · simpa using h
    · split at h
      · rcases List.mem_cons.mp h with h | h
        · exact .inl h
        · exact .inr (List.mem_cons_of_mem _ h)
      · rcases List.mem_cons.mp h with h | h
        · exact .inr (by simp [h])
        · exact (ih h).imp id (List.mem_cons_of_mem _)

theorem mem_eraseCell {l : List Host.Cell} {a : Nat} {c : Host.Cell} (h : c ∈ eraseCell a l) : c ∈ l := by
  induction l with
  | nil => simp [eraseCell] at h
  | cons d t ih =>
    obtain ⟨k, w⟩ := d
    simp only [eraseCell] at h
    split at h
    · exact List.mem_cons_of_mem _ (ih h)
    · rcases List.mem_cons.mp h with h | h
      · simp [h]
      · exact List.mem_cons_of_mem _ (ih h)

theorem rising_insertCell {l : List Host.Cell} (h : l.Pairwise (fun p q => p.1 < q.1)) (a : Nat) (v : Byte) :
    (insertCell a v l).Pairwise (fun p q => p.1 < q.1) := by
  induction l with
  | nil => simp [insertCell]
  | cons d t ih =>
    obtain ⟨k, w⟩ := d
    obtain ⟨hk, ht⟩ := List.pairwise_cons.mp h
    simp only [insertCell]
    split
    · rename_i h1
      refine List.pairwise_cons.mpr ⟨?_, h⟩
      intro c hc
      rcases List.mem_cons.mp hc with rfl | hc
      · exact h1
      · exact Nat.lt_trans h1 (hk c hc)
    · split
      · rename_i h2
        subst h2
        exact List.pairwise_cons.mpr ⟨hk, ht⟩
      · refine List.pairwise_cons.mpr ⟨?_, ih ht⟩
        intro c hc
        rcases mem_insertCell hc with rfl | hc
        · show k < a
          omega
        · exact hk c hc

theorem rising_eraseCell {l : List Host.Cell} (h : l.Pairwise (fun p q => p.1 < q.1)) (a : Nat) :
    (eraseCell a l).Pairwise (fun p q => p.1 < q.1) := by
  induction l with
  | nil => simp [eraseCell]
  | cons d t ih =>
    obtain ⟨k, w⟩ := d
    obtain ⟨hk, ht⟩ := List.pairwise_cons.mp h
    simp only [eraseCell]
    split
    · exact ih ht
    · exact List.pairwise_cons.mpr ⟨fun c hc => hk c (mem_eraseCell hc), ih ht⟩

/-! ### One byte -/

@[simp] theorem Memory.write_font (m : Memory) (a : Nat) (v : Byte) : (m.write a v).font = m.font := rfl

@[simp] theorem Memory.write_unlisted (m : Memory) (a : Nat) (v : Byte) : (m.write a v).unlisted = m.unlisted := rfl

/-- A byte written is what a read of its address gives, and no other address's (20_memory.md R68, R72). -/
theorem Memory.byteAt_write (m : Memory) (a b : Nat) (v : Byte) :
    (m.write a v).byteAt b = if b = a then v else m.byteAt b := by
  have hu : (m.write a v).unlisted b = m.unlisted b := rfl
  unfold Memory.byteAt
  rw [hu]
  unfold Memory.write
  by_cases hv : v = m.unlisted a
  · simp only [hv, if_true, lookup_eraseCell]
    by_cases hab : b = a
    · subst hab; simp
    · simp [hab, Ne.symm hab]
  · simp only [hv, if_false, lookup_insertCell]
    by_cases hab : b = a
    · subst hab; simp
    · simp [hab, Ne.symm hab]

/-- A write into the address space keeps the canonical form. -/
theorem Memory.wf_write {m : Memory} (h : m.wf) {a : Nat} (ha : a < 4096) (v : Byte) : (m.write a v).wf := by
  obtain ⟨hr, hc⟩ := h
  unfold Memory.write
  by_cases hv : v = m.unlisted a
  · simp only [hv, if_true]
    exact ⟨rising_eraseCell hr a, fun c h => hc c (mem_eraseCell h)⟩
  · simp only [hv, if_false]
    refine ⟨rising_insertCell hr a v, fun c h => ?_⟩
    rcases mem_insertCell h with rfl | h
    · exact ⟨ha, hv⟩
    · exact hc c h

/-- Memory with nothing listed is in the canonical form. -/
theorem Memory.wf_empty (f : Vector Byte 80) : Memory.wf ⟨f, []⟩ := ⟨List.Pairwise.nil, by simp⟩

/-! ### Images -/

@[simp] theorem Memory.writeImage_font (m : Memory) (a : Nat) (bs : List Byte) : (m.writeImage a bs).font = m.font := by
  induction bs generalizing m a with
  | nil => rfl
  | cons b t ih => simp [Memory.writeImage, ih]

/-- The bytes of an image stand at its addresses, and every other address keeps its byte (10_state.md R43). -/
theorem Memory.byteAt_writeImage (m : Memory) (a : Nat) (bs : List Byte) (b : Nat) :
    (m.writeImage a bs).byteAt b =
      if h : a ≤ b ∧ b < a + bs.length then bs[b - a]'(by omega) else m.byteAt b := by
  induction bs generalizing m a with
  | nil => simp [Memory.writeImage]
  | cons w t ih =>
    simp only [Memory.writeImage, ih, Memory.byteAt_write, List.length_cons]
    by_cases hab : b = a
    · subst hab
      have h2 : b ≤ b ∧ b < b + (t.length + 1) := by omega
      simp [h2]
    · by_cases hin : a + 1 ≤ b ∧ b < a + 1 + t.length
      · have h2 : a ≤ b ∧ b < a + (t.length + 1) := by omega
        simp only [hin, h2, and_self, dif_pos]
        have : b - a = (b - (a + 1)) + 1 := by omega
        simp [this]
      · have h2 : ¬ (a ≤ b ∧ b < a + (t.length + 1)) := by omega
        rw [dif_neg hin, if_neg hab, dif_neg h2]

theorem Memory.wf_writeImage {m : Memory} (h : m.wf) {a : Nat} {bs : List Byte} (ha : a + bs.length ≤ 4096) :
    (m.writeImage a bs).wf := by
  induction bs generalizing m a with
  | nil => exact h
  | cons b t ih =>
    simp only [List.length_cons] at ha
    exact ih (Memory.wf_write h (by omega) b) (by omega)

/-! ### Multi-byte accesses

The first address out of range, in access order: the first address itself, or 0x1000 (60_exceptions.md R181). -/

/-- `n` reads from `a` answer the bytes there, or the first address that is out of range. -/
theorem Memory.readBytes_eq (m : Memory) (a n : Nat) :
    m.readBytes a n =
      if n = 0 ∨ a + n ≤ 0x1000 then .ok ((List.range n).map fun k => m.byteAt (a + k))
      else .error (max a 0x1000) := by
  induction n generalizing a with
  | zero => simp [Memory.readBytes]
  | succ n ih =>
    simp only [Memory.readBytes, Memory.memRead]
    by_cases h1 : a > 0xFFF
    · have : ¬ (n + 1 = 0 ∨ a + (n + 1) ≤ 0x1000) := by omega
      simp only [h1, if_true, this, if_false]
      congr 1; omega
    · simp only [h1, if_false, ih]
      by_cases h2 : n = 0 ∨ a + 1 + n ≤ 0x1000
      · have : n + 1 = 0 ∨ a + (n + 1) ≤ 0x1000 := by omega
        simp only [h2, this, if_true, List.range_succ_eq_map, List.map_cons, List.map_map, Nat.add_zero]
        simp [Function.comp_def, Nat.add_comm, Nat.add_left_comm]
      · have : ¬ (n + 1 = 0 ∨ a + (n + 1) ≤ 0x1000) := by omega
        simp only [h2, this, if_false]
        congr 1; omega

/-- Byte writes from `a` answer the memory with them all, or the first address that is out of range. -/
theorem Memory.writeBytes_eq (m : Memory) (a : Nat) (bs : List Byte) :
    m.writeBytes a bs =
      if bs = [] ∨ a + bs.length ≤ 0x1000 then .ok (m.writeImage a bs) else .error (max a 0x1000) := by
  induction bs generalizing m a with
  | nil => simp [Memory.writeBytes, Memory.writeImage]
  | cons b t ih =>
    simp only [Memory.writeBytes, Memory.memWrite, Memory.writeImage, List.length_cons]
    by_cases h1 : a > 0xFFF
    · have : ¬ (a + (t.length + 1) ≤ 0x1000) := by omega
      simp only [h1, if_true, this]
      simp; omega
    · simp only [h1, if_false, ih]
      by_cases h2 : a + (t.length + 1) ≤ 0x1000
      · have : t = [] ∨ a + 1 + t.length ≤ 0x1000 := by omega
        simp [h2, this]
      · have : ¬ (t = [] ∨ a + 1 + t.length ≤ 0x1000) := by
          rintro (rfl | h)
          · simp at h2; omega
          · omega
        simp only [this, h2, if_false]
        simp; omega

end Sys2Proof.Machine
end

