-- ==== Sys2Proof/Laws/State.lean ====
section
/-! SUPPORT. One lemma per field per named update of the state, and per field for fault entry and for reading a register after
an update, so that no proof unfolds a record update. -/

namespace Sys2Proof.Machine

variable (s : State)

/-! ### `State.setReg` -/

@[simp] theorem State.setReg_mem (x : Reg) (b : Byte) : (s.setReg x b).mem = s.mem := rfl
@[simp] theorem State.setReg_v (x : Reg) (b : Byte) : (s.setReg x b).v = s.v.set x.val b := rfl
@[simp] theorem State.setReg_i (x : Reg) (b : Byte) : (s.setReg x b).i = s.i := rfl
@[simp] theorem State.setReg_pc (x : Reg) (b : Byte) : (s.setReg x b).pc = s.pc := rfl
@[simp] theorem State.setReg_stack (x : Reg) (b : Byte) : (s.setReg x b).stack = s.stack := rfl
@[simp] theorem State.setReg_sp (x : Reg) (b : Byte) : (s.setReg x b).sp = s.sp := rfl
@[simp] theorem State.setReg_dt (x : Reg) (b : Byte) : (s.setReg x b).dt = s.dt := rfl
@[simp] theorem State.setReg_st (x : Reg) (b : Byte) : (s.setReg x b).st = s.st := rfl
@[simp] theorem State.setReg_key (x : Reg) (b : Byte) : (s.setReg x b).key = s.key := rfl
@[simp] theorem State.setReg_fb (x : Reg) (b : Byte) : (s.setReg x b).fb = s.fb := rfl
@[simp] theorem State.setReg_fault (x : Reg) (b : Byte) : (s.setReg x b).fault = s.fault := rfl
@[simp] theorem State.setReg_rnd (x : Reg) (b : Byte) : (s.setReg x b).rnd = s.rnd := rfl
@[simp] theorem State.setReg_pick (x : Reg) (b : Byte) : (s.setReg x b).pick = s.pick := rfl
@[simp] theorem State.setReg_ticks (x : Reg) (b : Byte) : (s.setReg x b).ticks = s.ticks := rfl
@[simp] theorem State.setReg_pending (x : Reg) (b : Byte) : (s.setReg x b).pending = s.pending := rfl
@[simp] theorem State.setReg_answer (x : Reg) (b : Byte) : (s.setReg x b).answer = s.answer := rfl

/-! ### `State.setPc` -/

@[simp] theorem State.setPc_mem (a : Word) : (s.setPc a).mem = s.mem := rfl
@[simp] theorem State.setPc_v (a : Word) : (s.setPc a).v = s.v := rfl
@[simp] theorem State.setPc_i (a : Word) : (s.setPc a).i = s.i := rfl
@[simp] theorem State.setPc_pc (a : Word) : (s.setPc a).pc = a := rfl
@[simp] theorem State.setPc_stack (a : Word) : (s.setPc a).stack = s.stack := rfl
@[simp] theorem State.setPc_sp (a : Word) : (s.setPc a).sp = s.sp := rfl
@[simp] theorem State.setPc_dt (a : Word) : (s.setPc a).dt = s.dt := rfl
@[simp] theorem State.setPc_st (a : Word) : (s.setPc a).st = s.st := rfl
@[simp] theorem State.setPc_key (a : Word) : (s.setPc a).key = s.key := rfl
@[simp] theorem State.setPc_fb (a : Word) : (s.setPc a).fb = s.fb := rfl
@[simp] theorem State.setPc_fault (a : Word) : (s.setPc a).fault = s.fault := rfl
@[simp] theorem State.setPc_rnd (a : Word) : (s.setPc a).rnd = s.rnd := rfl
@[simp] theorem State.setPc_pick (a : Word) : (s.setPc a).pick = s.pick := rfl
@[simp] theorem State.setPc_ticks (a : Word) : (s.setPc a).ticks = s.ticks := rfl
@[simp] theorem State.setPc_pending (a : Word) : (s.setPc a).pending = s.pending := rfl
@[simp] theorem State.setPc_answer (a : Word) : (s.setPc a).answer = s.answer := rfl
@[simp] theorem State.setPc_reg (a : Word) (y : Reg) : (s.setPc a).reg y = s.reg y := rfl

/-! ### `State.setI` -/

@[simp] theorem State.setI_mem (a : Word) : (s.setI a).mem = s.mem := rfl
@[simp] theorem State.setI_v (a : Word) : (s.setI a).v = s.v := rfl
@[simp] theorem State.setI_i (a : Word) : (s.setI a).i = a := rfl
@[simp] theorem State.setI_pc (a : Word) : (s.setI a).pc = s.pc := rfl
@[simp] theorem State.setI_stack (a : Word) : (s.setI a).stack = s.stack := rfl
@[simp] theorem State.setI_sp (a : Word) : (s.setI a).sp = s.sp := rfl
@[simp] theorem State.setI_dt (a : Word) : (s.setI a).dt = s.dt := rfl
@[simp] theorem State.setI_st (a : Word) : (s.setI a).st = s.st := rfl
@[simp] theorem State.setI_key (a : Word) : (s.setI a).key = s.key := rfl
@[simp] theorem State.setI_fb (a : Word) : (s.setI a).fb = s.fb := rfl
@[simp] theorem State.setI_fault (a : Word) : (s.setI a).fault = s.fault := rfl
@[simp] theorem State.setI_rnd (a : Word) : (s.setI a).rnd = s.rnd := rfl
@[simp] theorem State.setI_pick (a : Word) : (s.setI a).pick = s.pick := rfl
@[simp] theorem State.setI_ticks (a : Word) : (s.setI a).ticks = s.ticks := rfl
@[simp] theorem State.setI_pending (a : Word) : (s.setI a).pending = s.pending := rfl
@[simp] theorem State.setI_answer (a : Word) : (s.setI a).answer = s.answer := rfl
@[simp] theorem State.setI_reg (a : Word) (y : Reg) : (s.setI a).reg y = s.reg y := rfl

/-! ### `State.setDt` -/

@[simp] theorem State.setDt_mem (b : Byte) : (s.setDt b).mem = s.mem := rfl
@[simp] theorem State.setDt_v (b : Byte) : (s.setDt b).v = s.v := rfl
@[simp] theorem State.setDt_i (b : Byte) : (s.setDt b).i = s.i := rfl
@[simp] theorem State.setDt_pc (b : Byte) : (s.setDt b).pc = s.pc := rfl
@[simp] theorem State.setDt_stack (b : Byte) : (s.setDt b).stack = s.stack := rfl
@[simp] theorem State.setDt_sp (b : Byte) : (s.setDt b).sp = s.sp := rfl
@[simp] theorem State.setDt_dt (b : Byte) : (s.setDt b).dt = b := rfl
@[simp] theorem State.setDt_st (b : Byte) : (s.setDt b).st = s.st := rfl
@[simp] theorem State.setDt_key (b : Byte) : (s.setDt b).key = s.key := rfl
@[simp] theorem State.setDt_fb (b : Byte) : (s.setDt b).fb = s.fb := rfl
@[simp] theorem State.setDt_fault (b : Byte) : (s.setDt b).fault = s.fault := rfl
@[simp] theorem State.setDt_rnd (b : Byte) : (s.setDt b).rnd = s.rnd := rfl
@[simp] theorem State.setDt_pick (b : Byte) : (s.setDt b).pick = s.pick := rfl
@[simp] theorem State.setDt_ticks (b : Byte) : (s.setDt b).ticks = s.ticks := rfl
@[simp] theorem State.setDt_pending (b : Byte) : (s.setDt b).pending = s.pending := rfl
@[simp] theorem State.setDt_answer (b : Byte) : (s.setDt b).answer = s.answer := rfl
@[simp] theorem State.setDt_reg (b : Byte) (y : Reg) : (s.setDt b).reg y = s.reg y := rfl

/-! ### `State.setSt` -/

@[simp] theorem State.setSt_mem (b : Byte) : (s.setSt b).mem = s.mem := rfl
@[simp] theorem State.setSt_v (b : Byte) : (s.setSt b).v = s.v := rfl
@[simp] theorem State.setSt_i (b : Byte) : (s.setSt b).i = s.i := rfl
@[simp] theorem State.setSt_pc (b : Byte) : (s.setSt b).pc = s.pc := rfl
@[simp] theorem State.setSt_stack (b : Byte) : (s.setSt b).stack = s.stack := rfl
@[simp] theorem State.setSt_sp (b : Byte) : (s.setSt b).sp = s.sp := rfl
@[simp] theorem State.setSt_dt (b : Byte) : (s.setSt b).dt = s.dt := rfl
@[simp] theorem State.setSt_st (b : Byte) : (s.setSt b).st = b := rfl
@[simp] theorem State.setSt_key (b : Byte) : (s.setSt b).key = s.key := rfl
@[simp] theorem State.setSt_fb (b : Byte) : (s.setSt b).fb = s.fb := rfl
@[simp] theorem State.setSt_fault (b : Byte) : (s.setSt b).fault = s.fault := rfl
@[simp] theorem State.setSt_rnd (b : Byte) : (s.setSt b).rnd = s.rnd := rfl
@[simp] theorem State.setSt_pick (b : Byte) : (s.setSt b).pick = s.pick := rfl
@[simp] theorem State.setSt_ticks (b : Byte) : (s.setSt b).ticks = s.ticks := rfl
@[simp] theorem State.setSt_pending (b : Byte) : (s.setSt b).pending = s.pending := rfl
@[simp] theorem State.setSt_answer (b : Byte) : (s.setSt b).answer = s.answer := rfl
@[simp] theorem State.setSt_reg (b : Byte) (y : Reg) : (s.setSt b).reg y = s.reg y := rfl

/-! ### `State.setMem` -/

@[simp] theorem State.setMem_mem (m : Memory) : (s.setMem m).mem = m := rfl
@[simp] theorem State.setMem_v (m : Memory) : (s.setMem m).v = s.v := rfl
@[simp] theorem State.setMem_i (m : Memory) : (s.setMem m).i = s.i := rfl
@[simp] theorem State.setMem_pc (m : Memory) : (s.setMem m).pc = s.pc := rfl
@[simp] theorem State.setMem_stack (m : Memory) : (s.setMem m).stack = s.stack := rfl
@[simp] theorem State.setMem_sp (m : Memory) : (s.setMem m).sp = s.sp := rfl
@[simp] theorem State.setMem_dt (m : Memory) : (s.setMem m).dt = s.dt := rfl
@[simp] theorem State.setMem_st (m : Memory) : (s.setMem m).st = s.st := rfl
@[simp] theorem State.setMem_key (m : Memory) : (s.setMem m).key = s.key := rfl
@[simp] theorem State.setMem_fb (m : Memory) : (s.setMem m).fb = s.fb := rfl
@[simp] theorem State.setMem_fault (m : Memory) : (s.setMem m).fault = s.fault := rfl
@[simp] theorem State.setMem_rnd (m : Memory) : (s.setMem m).rnd = s.rnd := rfl
@[simp] theorem State.setMem_pick (m : Memory) : (s.setMem m).pick = s.pick := rfl
@[simp] theorem State.setMem_ticks (m : Memory) : (s.setMem m).ticks = s.ticks := rfl
@[simp] theorem State.setMem_pending (m : Memory) : (s.setMem m).pending = s.pending := rfl
@[simp] theorem State.setMem_answer (m : Memory) : (s.setMem m).answer = s.answer := rfl
@[simp] theorem State.setMem_reg (m : Memory) (y : Reg) : (s.setMem m).reg y = s.reg y := rfl

/-! ### `State.setFb` -/

@[simp] theorem State.setFb_mem (g : Framebuffer) : (s.setFb g).mem = s.mem := rfl
@[simp] theorem State.setFb_v (g : Framebuffer) : (s.setFb g).v = s.v := rfl
@[simp] theorem State.setFb_i (g : Framebuffer) : (s.setFb g).i = s.i := rfl
@[simp] theorem State.setFb_pc (g : Framebuffer) : (s.setFb g).pc = s.pc := rfl
@[simp] theorem State.setFb_stack (g : Framebuffer) : (s.setFb g).stack = s.stack := rfl
@[simp] theorem State.setFb_sp (g : Framebuffer) : (s.setFb g).sp = s.sp := rfl
@[simp] theorem State.setFb_dt (g : Framebuffer) : (s.setFb g).dt = s.dt := rfl
@[simp] theorem State.setFb_st (g : Framebuffer) : (s.setFb g).st = s.st := rfl
@[simp] theorem State.setFb_key (g : Framebuffer) : (s.setFb g).key = s.key := rfl
@[simp] theorem State.setFb_fb (g : Framebuffer) : (s.setFb g).fb = g := rfl
@[simp] theorem State.setFb_fault (g : Framebuffer) : (s.setFb g).fault = s.fault := rfl
@[simp] theorem State.setFb_rnd (g : Framebuffer) : (s.setFb g).rnd = s.rnd := rfl
@[simp] theorem State.setFb_pick (g : Framebuffer) : (s.setFb g).pick = s.pick := rfl
@[simp] theorem State.setFb_ticks (g : Framebuffer) : (s.setFb g).ticks = s.ticks := rfl
@[simp] theorem State.setFb_pending (g : Framebuffer) : (s.setFb g).pending = s.pending := rfl
@[simp] theorem State.setFb_answer (g : Framebuffer) : (s.setFb g).answer = s.answer := rfl
@[simp] theorem State.setFb_reg (g : Framebuffer) (y : Reg) : (s.setFb g).reg y = s.reg y := rfl

/-! ### `State.setAnswer` -/

@[simp] theorem State.setAnswer_mem (a : Answer) : (s.setAnswer a).mem = s.mem := rfl
@[simp] theorem State.setAnswer_v (a : Answer) : (s.setAnswer a).v = s.v := rfl
@[simp] theorem State.setAnswer_i (a : Answer) : (s.setAnswer a).i = s.i := rfl
@[simp] theorem State.setAnswer_pc (a : Answer) : (s.setAnswer a).pc = s.pc := rfl
@[simp] theorem State.setAnswer_stack (a : Answer) : (s.setAnswer a).stack = s.stack := rfl
@[simp] theorem State.setAnswer_sp (a : Answer) : (s.setAnswer a).sp = s.sp := rfl
@[simp] theorem State.setAnswer_dt (a : Answer) : (s.setAnswer a).dt = s.dt := rfl
@[simp] theorem State.setAnswer_st (a : Answer) : (s.setAnswer a).st = s.st := rfl
@[simp] theorem State.setAnswer_key (a : Answer) : (s.setAnswer a).key = s.key := rfl
@[simp] theorem State.setAnswer_fb (a : Answer) : (s.setAnswer a).fb = s.fb := rfl
@[simp] theorem State.setAnswer_fault (a : Answer) : (s.setAnswer a).fault = s.fault := rfl
@[simp] theorem State.setAnswer_rnd (a : Answer) : (s.setAnswer a).rnd = s.rnd := rfl
@[simp] theorem State.setAnswer_pick (a : Answer) : (s.setAnswer a).pick = s.pick := rfl
@[simp] theorem State.setAnswer_ticks (a : Answer) : (s.setAnswer a).ticks = s.ticks := rfl
@[simp] theorem State.setAnswer_pending (a : Answer) : (s.setAnswer a).pending = s.pending := rfl
@[simp] theorem State.setAnswer_answer (a : Answer) : (s.setAnswer a).answer = a := rfl
@[simp] theorem State.setAnswer_reg (a : Answer) (y : Reg) : (s.setAnswer a).reg y = s.reg y := rfl

/-! ### `State.beforeFetch` -/

@[simp] theorem State.beforeFetch_mem : (s.beforeFetch).mem = s.mem := rfl
@[simp] theorem State.beforeFetch_v : (s.beforeFetch).v = s.v := rfl
@[simp] theorem State.beforeFetch_i : (s.beforeFetch).i = s.i := rfl
@[simp] theorem State.beforeFetch_pc : (s.beforeFetch).pc = s.pc - 2 := rfl
@[simp] theorem State.beforeFetch_stack : (s.beforeFetch).stack = s.stack := rfl
@[simp] theorem State.beforeFetch_sp : (s.beforeFetch).sp = s.sp := rfl
@[simp] theorem State.beforeFetch_dt : (s.beforeFetch).dt = s.dt := rfl
@[simp] theorem State.beforeFetch_st : (s.beforeFetch).st = s.st := rfl
@[simp] theorem State.beforeFetch_key : (s.beforeFetch).key = s.key := rfl
@[simp] theorem State.beforeFetch_fb : (s.beforeFetch).fb = s.fb := rfl
@[simp] theorem State.beforeFetch_fault : (s.beforeFetch).fault = s.fault := rfl
@[simp] theorem State.beforeFetch_rnd : (s.beforeFetch).rnd = s.rnd := rfl
@[simp] theorem State.beforeFetch_pick : (s.beforeFetch).pick = s.pick := rfl
@[simp] theorem State.beforeFetch_ticks : (s.beforeFetch).ticks = s.ticks := rfl
@[simp] theorem State.beforeFetch_pending : (s.beforeFetch).pending = s.pending := rfl
@[simp] theorem State.beforeFetch_answer : (s.beforeFetch).answer = s.answer := rfl
@[simp] theorem State.beforeFetch_reg (y : Reg) : (s.beforeFetch).reg y = s.reg y := rfl

/-! ### `State.beginTick` -/

@[simp] theorem State.beginTick_mem (r : Byte) (p : Nat) : (s.beginTick r p).mem = s.mem := rfl
@[simp] theorem State.beginTick_v (r : Byte) (p : Nat) : (s.beginTick r p).v = s.v := rfl
@[simp] theorem State.beginTick_i (r : Byte) (p : Nat) : (s.beginTick r p).i = s.i := rfl
@[simp] theorem State.beginTick_pc (r : Byte) (p : Nat) : (s.beginTick r p).pc = s.pc := rfl
@[simp] theorem State.beginTick_stack (r : Byte) (p : Nat) : (s.beginTick r p).stack = s.stack := rfl
@[simp] theorem State.beginTick_sp (r : Byte) (p : Nat) : (s.beginTick r p).sp = s.sp := rfl
@[simp] theorem State.beginTick_dt (r : Byte) (p : Nat) : (s.beginTick r p).dt = s.dt := rfl
@[simp] theorem State.beginTick_st (r : Byte) (p : Nat) : (s.beginTick r p).st = s.st := rfl
@[simp] theorem State.beginTick_key (r : Byte) (p : Nat) : (s.beginTick r p).key = s.key := rfl
@[simp] theorem State.beginTick_fb (r : Byte) (p : Nat) : (s.beginTick r p).fb = s.fb := rfl
@[simp] theorem State.beginTick_fault (r : Byte) (p : Nat) : (s.beginTick r p).fault = s.fault := rfl
@[simp] theorem State.beginTick_rnd (r : Byte) (p : Nat) : (s.beginTick r p).rnd = r := rfl
@[simp] theorem State.beginTick_pick (r : Byte) (p : Nat) : (s.beginTick r p).pick = p := rfl
@[simp] theorem State.beginTick_ticks (r : Byte) (p : Nat) : (s.beginTick r p).ticks = s.ticks + 1 := rfl
@[simp] theorem State.beginTick_pending (r : Byte) (p : Nat) : (s.beginTick r p).pending = s.pending := rfl
@[simp] theorem State.beginTick_answer (r : Byte) (p : Nat) : (s.beginTick r p).answer = s.answer := rfl
@[simp] theorem State.beginTick_reg (r : Byte) (p : Nat) (y : Reg) : (s.beginTick r p).reg y = s.reg y := rfl

/-! ### `enterFault` -/

@[simp] theorem enterFault_mem (c : Cause) (w : Option Word) (n : Option Nat) : (enterFault c w n s).mem = s.mem := rfl
@[simp] theorem enterFault_v (c : Cause) (w : Option Word) (n : Option Nat) : (enterFault c w n s).v = s.v := rfl
@[simp] theorem enterFault_i (c : Cause) (w : Option Word) (n : Option Nat) : (enterFault c w n s).i = s.i := rfl
@[simp] theorem enterFault_pc (c : Cause) (w : Option Word) (n : Option Nat) : (enterFault c w n s).pc = s.pc := rfl
@[simp] theorem enterFault_stack (c : Cause) (w : Option Word) (n : Option Nat) : (enterFault c w n s).stack = s.stack := rfl
@[simp] theorem enterFault_sp (c : Cause) (w : Option Word) (n : Option Nat) : (enterFault c w n s).sp = s.sp := rfl
@[simp] theorem enterFault_dt (c : Cause) (w : Option Word) (n : Option Nat) : (enterFault c w n s).dt = s.dt := rfl
@[simp] theorem enterFault_st (c : Cause) (w : Option Word) (n : Option Nat) : (enterFault c w n s).st = s.st := rfl
@[simp] theorem enterFault_key (c : Cause) (w : Option Word) (n : Option Nat) : (enterFault c w n s).key = s.key := rfl
@[simp] theorem enterFault_fb (c : Cause) (w : Option Word) (n : Option Nat) : (enterFault c w n s).fb = s.fb := rfl
@[simp] theorem enterFault_fault (c : Cause) (w : Option Word) (n : Option Nat) : (enterFault c w n s).fault = some ⟨c, s.pc, w, n⟩ := rfl
@[simp] theorem enterFault_rnd (c : Cause) (w : Option Word) (n : Option Nat) : (enterFault c w n s).rnd = s.rnd := rfl
@[simp] theorem enterFault_pick (c : Cause) (w : Option Word) (n : Option Nat) : (enterFault c w n s).pick = s.pick := rfl
@[simp] theorem enterFault_ticks (c : Cause) (w : Option Word) (n : Option Nat) : (enterFault c w n s).ticks = s.ticks := rfl
@[simp] theorem enterFault_pending (c : Cause) (w : Option Word) (n : Option Nat) : (enterFault c w n s).pending = s.pending := rfl
@[simp] theorem enterFault_answer (c : Cause) (w : Option Word) (n : Option Nat) : (enterFault c w n s).answer = .fault c := rfl
@[simp] theorem enterFault_reg (c : Cause) (w : Option Word) (n : Option Nat) (y : Reg) : (enterFault c w n s).reg y = s.reg y := rfl

/-! ### Reading a register after a register write -/

/-- Every write of a register is seen by its reads, and by no other register's (10_state.md R22). -/
theorem State.reg_setReg (x y : Reg) (b : Byte) : (s.setReg x b).reg y = if y = x then b else s.reg y := by
  simp only [State.reg, State.setReg, Vector.get_eq_getElem, Vector.getElem_set, Fin.ext_iff]
  simp only [eq_comm]

@[simp] theorem State.reg_setReg_self (x : Reg) (b : Byte) : (s.setReg x b).reg x = b := by simp [State.reg_setReg]

theorem State.reg_setReg_ne {x y : Reg} (h : y ≠ x) (b : Byte) : (s.setReg x b).reg y = s.reg y := by
  simp [State.reg_setReg, h]

/-- The flag of a flag-setting instruction is what VF holds afterwards (00_scope.md R11). -/
@[simp] theorem State.setRegAndFlag_flag (x : Reg) (b g : Byte) : (s.setRegAndFlag x b g).reg VF = g := by
  simp [State.setRegAndFlag]

/-- The result is kept unless VF is its register (00_scope.md R11). -/
theorem State.setRegAndFlag_result {x : Reg} (h : x ≠ VF) (b g : Byte) : (s.setRegAndFlag x b g).reg x = b := by
  simp [State.setRegAndFlag, State.reg_setReg, h]

theorem State.setRegAndFlag_other {x y : Reg} (h : y ≠ x) (h' : y ≠ VF) (b g : Byte) :
    (s.setRegAndFlag x b g).reg y = s.reg y := by
  simp [State.setRegAndFlag, State.reg_setReg, h, h']

/-- A skip moves `PC` by 2 or not, and nothing else (40_control.md R100). -/
theorem State.skipIf_eq (c : Bool) : s.skipIf c = s.setPc (if c then s.pc + 2 else s.pc) := by
  cases c <;> rfl

/-- Two states with the same fields, registers compared one by one, are one state. -/
theorem State.v_ext {u w : Vector Byte 16} (h : ∀ r : Reg, u.get r = w.get r) : u = w := by
  apply Vector.ext
  intro k hk
  simpa [Vector.get_eq_getElem] using h ⟨k, hk⟩

end Sys2Proof.Machine
end

