-- ==== Sys2Proof/Laws/Ops.lean ====
section
/-! SUPPORT. What each shared operation does, said once: the stack, the fetch, the register block load, the operand forms and the
flags. -/

namespace Sys2Proof.Machine

/-! ### The call stack (10_state.md R28) -/

theorem State.push_of_lt (s : State) (a : Word) (h : s.sp.val < 16) :
    s.push a = some { s with stack := s.stack.set s.sp.val a, sp := ⟨s.sp.val + 1, by omega⟩ } := dif_pos h

theorem State.push_of_full (s : State) (a : Word) (h : s.sp.val = 16) : s.push a = none := dif_neg (by omega)

theorem State.pop_of_pos (s : State) (h : 0 < s.sp.val) :
    s.pop = some (s.stack[s.sp.val - 1]'(by omega), { s with sp := ⟨s.sp.val - 1, by omega⟩ }) := dif_pos h

theorem State.pop_of_empty (s : State) (h : s.sp.val = 0) : s.pop = none := dif_neg (by omega)

/-! ### Fetch (30_encoding.md R81) -/

theorem fetch_of_le {s : State} (h : s.pc.toNat ≤ 0xFFE) :
    fetch s = some (s.mem.wordAt s.pc.toNat, s.setPc (s.pc + 2)) := if_neg (by omega)

theorem fetch_of_gt {s : State} (h : s.pc.toNat > 0xFFE) : fetch s = none := if_pos h

theorem wordAt_toNat (m : Memory) (a : Nat) :
    (m.wordAt a).toNat = 256 * (m.byteAt a).toNat + (m.byteAt (a + 1)).toNat := by
  have h : (m.byteAt (a + 1)).toNat < 2 ^ 8 := (m.byteAt (a + 1)).isLt
  have : (m.wordAt a).toNat = (m.byteAt a).toNat <<< 8 ||| (m.byteAt (a + 1)).toNat := BitVec.toNat_append _ _
  rw [this, ← Nat.shiftLeft_add_eq_or_of_lt h, Nat.shiftLeft_eq]
  omega

/-- The fetch's advance undone gives the state before it. -/
theorem beforeFetch_setPc (s : State) : (s.setPc (s.pc + 2)).beforeFetch = s := by
  simp only [State.beforeFetch, State.setPc]
  have : s.pc + 2 - 2 = s.pc := by bv_omega
  rw [this]

/-! ### Loading a run of registers (43_index_memory.md R155) -/

/-- Only the value registers change. -/
theorem State.setRegsFrom_eq (s : State) (k : Nat) (bs : List Byte) :
    s.setRegsFrom k bs = { s with v := (s.setRegsFrom k bs).v } := by
  induction bs generalizing s k with
  | nil => rfl
  | cons b t ih =>
    rw [State.setRegsFrom, ih]

/-- Register `k + j` gets byte `j`; the others keep their values. -/
theorem State.setRegsFrom_reg (s : State) (k : Nat) (bs : List Byte) (r : Reg) :
    (s.setRegsFrom k bs).reg r =
      if h : k ≤ r.val ∧ r.val < k + bs.length then bs[r.val - k]'(by omega) else s.reg r := by
  induction bs generalizing s k with
  | nil => simp [State.setRegsFrom]
  | cons b t ih =>
    rw [State.setRegsFrom, ih]
    by_cases h0 : r.val = k
    · have h1 : ¬ (k + 1 ≤ r.val ∧ r.val < k + 1 + t.length) := by omega
      have h2 : k ≤ r.val ∧ r.val < k + (b :: t).length := by simp; omega
      rw [dif_neg h1, dif_pos h2]
      have : r.val < 16 := r.isLt
      simp [State.reg, Vector.get_eq_getElem, h0]
    · by_cases h1 : k + 1 ≤ r.val ∧ r.val < k + 1 + t.length
      · have h2 : k ≤ r.val ∧ r.val < k + (b :: t).length := by simp; omega
        rw [dif_pos h1, dif_pos h2]
        have : r.val - k = (r.val - (k + 1)) + 1 := by omega
        simp [this]
      · have h2 : ¬ (k ≤ r.val ∧ r.val < k + (b :: t).length) := by simp; omega
        rw [dif_neg h1, dif_neg h2]
        simp [State.reg, Vector.get_eq_getElem, Ne.symm h0]

/-! ### Operands -/

@[simp] theorem regsUpTo_length (s : State) (x : Reg) : (regsUpTo s x).length = x.val + 1 := by
  simp [regsUpTo]

/-- Byte `k` of `V0..VX` is `V[k]` (43_index_memory.md R154). -/
theorem regsUpTo_getElem (s : State) (x k : Reg) (h : k.val < (regsUpTo s x).length) : (regsUpTo s x)[k.val] = s.reg k := by
  simp [regsUpTo, State.reg, Vector.get_eq_getElem]

@[simp] theorem zextAddr_toNat (a : Addr) : (zextAddr a).toNat = a.toNat := by
  have : a.toNat < 4096 := a.isLt
  simp [zextAddr]; omega

@[simp] theorem zextByte_toNat (b : Byte) : (zextByte b).toNat = b.toNat := by
  have : b.toNat < 256 := b.isLt
  simp [zextByte]; omega

/-- Five times the digit never wraps (43_index_memory.md R152). -/
@[simp] theorem glyphAddress_toNat (b : Byte) : (glyphAddress b).toNat = b.toNat * 5 := by
  have : b.toNat < 256 := b.isLt
  simp [glyphAddress]; omega

theorem keyIndex_of_lt {a : Byte} {k : Reg} (h : a.toNat = k.val) : keyIndex a = some k := by
  simp [keyIndex, h]

theorem keyIndex_of_gt {a : Byte} (h : a.toNat > 15) : keyIndex a = none := dif_neg (by omega)

@[simp] theorem mem_pressedKeys (s : State) (k : Reg) : k ∈ pressedKeys s ↔ s.keyDown k = true := by
  simp [pressedKeys]

/-- `KEY_SELECT` gives none exactly where nothing is pressed (44_input_timers.md R168). -/
theorem keySelect_eq_none {p : List Reg} {pick : Nat} : keySelect p pick = none ↔ p = [] := by
  cases p with
  | nil => simp [keySelect]
  | cons a t =>
    have : pick % (a :: t).length < (a :: t).length := Nat.mod_lt _ (by simp)
    simp only [keySelect, List.getElem?_eq_getElem this]
    simp

/-- What `KEY_SELECT` gives is an element of `P`. -/
theorem keySelect_mem {p : List Reg} {pick : Nat} {k : Reg} (h : keySelect p pick = some k) : k ∈ p :=
  List.mem_of_getElem? h

/-- Every element of `P` is what some choice gives: no choice of the environment is left out (D12). -/
theorem exists_keySelect {p : List Reg} {k : Reg} (h : k ∈ p) : ∃ pick, keySelect p pick = some k := by
  obtain ⟨n, hn, rfl⟩ := List.mem_iff_getElem.mp h
  exact ⟨n, by simp [keySelect, Nat.mod_eq_of_lt hn, hn]⟩

/-! ### Flags -/

@[simp] theorem flagByte_toNat (b : Bool) : (flagByte b).toNat = if b then 1 else 0 := by cases b <;> rfl

theorem flagByte_zero_or_one (b : Bool) : flagByte b = 0 ∨ flagByte b = 1 := by cases b <;> simp [flagByte]

@[simp] theorem carryFlag_toNat (a b : Byte) : (carryFlag a b).toNat = if a.toNat + b.toNat > 255 then 1 else 0 := by
  simp [carryFlag]

@[simp] theorem noBorrowFlag_toNat (a b : Byte) : (noBorrowFlag a b).toNat = if a.toNat < b.toNat then 0 else 1 := by
  unfold noBorrowFlag; split <;> rfl

@[simp] theorem lowBitFlag_toNat (a : Byte) : (lowBitFlag a).toNat = a.toNat % 2 := by
  simp [lowBitFlag, Nat.and_one_is_mod]

@[simp] theorem highBitFlag_toNat (a : Byte) : (highBitFlag a).toNat = a.toNat / 128 := by
  have : a.toNat < 256 := a.isLt
  simp [highBitFlag, Nat.and_one_is_mod, Nat.shiftRight_eq_div_pow]
  omega

end Sys2Proof.Machine
end

