-- ==== Sys2Proof/Laws/Frames.lean ====
section
/-! SUPPORT. The frame of each named update, and how frames combine: a meaning's frame is put together from these. -/

namespace Sys2Proof.Machine

theorem BlockFrame.refl (p : List Part) (s : State) : BlockFrame p s s := by
  constructor <;> simp

theorem Frame.refl (p : List Part) (s : State) : Frame p s s := by
  constructor <;> simp [BlockFrame.refl]

/-- Naming more parts says less. -/
theorem BlockFrame.mono {p q : List Part} {s t : State} (h : BlockFrame p s t) (hs : ∀ a ∈ p, a ∈ q) : BlockFrame q s t where
  regs r hr := h.regs r fun m => hr (hs _ m)
  i hr := h.i fun m => hr (hs _ m)
  pc hr := h.pc fun m => hr (hs _ m)
  mem hr := h.mem fun m => hr (hs _ m)
  font := h.font
  stack hr := h.stack fun m => hr (hs _ m)
  dt hr := h.dt fun m => hr (hs _ m)
  st hr := h.st fun m => hr (hs _ m)
  key hr := h.key fun m => hr (hs _ m)
  fb hr := h.fb fun m => hr (hs _ m)
  fault hr := h.fault fun m => hr (hs _ m)

theorem Frame.mono {p q : List Part} {s t : State} (h : Frame p s t) (hs : ∀ a ∈ p, a ∈ q) : Frame q s t :=
  ⟨h.block.mono hs, h.rnd, h.pick, h.ticks, h.pending, fun hr => h.answer fun m => hr (hs _ m)⟩

/-- Two changes one after the other. -/
theorem BlockFrame.trans {p : List Part} {s t u : State} (h : BlockFrame p s t) (g : BlockFrame p t u) : BlockFrame p s u where
  regs r hr := (g.regs r hr).trans (h.regs r hr)
  i hr := (g.i hr).trans (h.i hr)
  pc hr := (g.pc hr).trans (h.pc hr)
  mem hr a := (g.mem hr a).trans (h.mem hr a)
  font := g.font.trans h.font
  stack hr := ⟨(g.stack hr).1.trans (h.stack hr).1, (g.stack hr).2.trans (h.stack hr).2⟩
  dt hr := (g.dt hr).trans (h.dt hr)
  st hr := (g.st hr).trans (h.st hr)
  key hr := (g.key hr).trans (h.key hr)
  fb hr := (g.fb hr).trans (h.fb hr)
  fault hr := (g.fault hr).trans (h.fault hr)

theorem Frame.trans {p : List Part} {s t u : State} (h : Frame p s t) (g : Frame p t u) : Frame p s u :=
  ⟨h.block.trans g.block, g.rnd.trans h.rnd, g.pick.trans h.pick, g.ticks.trans h.ticks, g.pending.trans h.pending,
    fun hr => (g.answer hr).trans (h.answer hr)⟩

section Updates
variable (s : State)

theorem frame_setReg (x : Reg) (b : Byte) : Frame [.v x] s (s.setReg x b) := by
  refine ⟨⟨fun r hr => State.reg_setReg_ne s (fun h => hr (by simp [h])) b, ?_, ?_, ?_, ?_, ?_, ?_, ?_, ?_, ?_, ?_⟩,
    ?_, ?_, ?_, ?_, ?_⟩ <;> simp

theorem frame_setRegAndFlag (x : Reg) (b g : Byte) : Frame [.v x, .v VF] s (s.setRegAndFlag x b g) :=
  ((frame_setReg s x b).mono (by simp)).trans ((frame_setReg _ VF g).mono (by simp))

theorem frame_setPc (a : Word) : Frame [.pc] s (s.setPc a) := by
  refine ⟨⟨?_, ?_, ?_, ?_, ?_, ?_, ?_, ?_, ?_, ?_, ?_⟩, ?_, ?_, ?_, ?_, ?_⟩ <;> simp

theorem frame_skipIf (c : Bool) : Frame [.pc] s (s.skipIf c) := by
  rw [State.skipIf_eq]; exact frame_setPc s _

theorem frame_setI (a : Word) : Frame [.i] s (s.setI a) := by
  refine ⟨⟨?_, ?_, ?_, ?_, ?_, ?_, ?_, ?_, ?_, ?_, ?_⟩, ?_, ?_, ?_, ?_, ?_⟩ <;> simp

theorem frame_setDt (b : Byte) : Frame [.dt] s (s.setDt b) := by
  refine ⟨⟨?_, ?_, ?_, ?_, ?_, ?_, ?_, ?_, ?_, ?_, ?_⟩, ?_, ?_, ?_, ?_, ?_⟩ <;> simp

theorem frame_setSt (b : Byte) : Frame [.st] s (s.setSt b) := by
  refine ⟨⟨?_, ?_, ?_, ?_, ?_, ?_, ?_, ?_, ?_, ?_, ?_⟩, ?_, ?_, ?_, ?_, ?_⟩ <;> simp

theorem frame_setFb (g : Framebuffer) : Frame [.fb] s (s.setFb g) := by
  refine ⟨⟨?_, ?_, ?_, ?_, ?_, ?_, ?_, ?_, ?_, ?_, ?_⟩, ?_, ?_, ?_, ?_, ?_⟩ <;> simp

theorem frame_setMem (m : Memory) (h : m.font = s.mem.font) : Frame [.mem] s (s.setMem m) := by
  refine ⟨⟨?_, ?_, ?_, ?_, ?_, ?_, ?_, ?_, ?_, ?_, ?_⟩, ?_, ?_, ?_, ?_, ?_⟩ <;> simp [h]

theorem frame_setRegsFrom (k : Nat) (bs : List Byte) (p : List Part)
    (h : ∀ r : Reg, k ≤ r.val → r.val < k + bs.length → Part.v r ∈ p) : Frame p s (s.setRegsFrom k bs) := by
  refine ⟨⟨fun r hr => ?_, ?_, ?_, ?_, ?_, ?_, ?_, ?_, ?_, ?_, ?_⟩, ?_, ?_, ?_, ?_, ?_⟩
  · rw [State.setRegsFrom_reg, dif_neg fun hk => hr (h r hk.1 hk.2)]
  all_goals rw [State.setRegsFrom_eq] <;> simp

theorem blockFrame_setAnswer (a : Answer) (p : List Part) : BlockFrame p s (s.setAnswer a) := by
  refine ⟨?_, ?_, ?_, ?_, ?_, ?_, ?_, ?_, ?_, ?_, ?_⟩ <;> simp

theorem blockFrame_beginTick (r : Byte) (n : Nat) (p : List Part) : BlockFrame p s (s.beginTick r n) := by
  refine ⟨?_, ?_, ?_, ?_, ?_, ?_, ?_, ?_, ?_, ?_, ?_⟩ <;> simp

/-- Fault entry sets `FAULT` and nothing else of the block (60_exceptions.md R182). -/
theorem blockFrame_enterFault (c : Cause) (w : Option Word) (n : Option Nat) : BlockFrame [.fault] s (enterFault c w n s) := by
  refine ⟨?_, ?_, ?_, ?_, ?_, ?_, ?_, ?_, ?_, ?_, ?_⟩ <;> simp

theorem frame_enterFault_beforeFetch (c : Cause) (w : Option Word) (n : Option Nat) :
    Frame [.pc, .fault] s (enterFault c w n s.beforeFetch) := by
  refine ⟨⟨?_, ?_, ?_, ?_, ?_, ?_, ?_, ?_, ?_, ?_, ?_⟩, ?_, ?_, ?_, ?_, ?_⟩ <;> simp

end Updates

/-- An instruction whose meaning raises a fault takes it (60_exceptions.md R182). -/
theorem takesFault_of_raise {i : Instr} {s : State} {c : Cause} {n : Option Nat} (h : exec i s = raiseFault c n i s) :
    TakesFault i s c n :=
  ⟨_, h, rfl, rfl, rfl, frame_enterFault_beforeFetch s c _ n⟩

end Sys2Proof.Machine
end

