-- ==== Sys2Proof/Laws/Exec.lean ====
section
/-! SUPPORT. What `exec` answers, for each instruction whose meaning has more than one case: where it completes, and where it
raises its fault. (For the other instructions `exec` is one update of the state, by `rfl`.) -/

namespace Sys2Proof.Machine

/-! ### The stack (40_control.md R102, R104) -/

theorem exec_call_of_lt (s : State) (nnn : Addr) (h : s.sp.val < 16) :
    exec (.call nnn) s =
      .next (State.setPc { s with stack := s.stack.set s.sp.val s.pc, sp := ⟨s.sp.val + 1, by omega⟩ } (zextAddr nnn)) := by
  simp only [exec, execCall, State.push_of_lt s s.pc h]

theorem exec_call_of_full (s : State) (nnn : Addr) (h : s.sp.val = 16) :
    exec (.call nnn) s = raiseFault .stackOverflow none (.call nnn) s := by
  simp only [exec, execCall, State.push_of_full s s.pc h]

theorem exec_ret_of_pos (s : State) (h : 0 < s.sp.val) :
    exec .ret s =
      .next (State.setPc { s with sp := ⟨s.sp.val - 1, by omega⟩ } (s.stack[s.sp.val - 1]'(by omega))) := by
  simp only [exec, execRet, State.pop_of_pos s h]

theorem exec_ret_of_empty (s : State) (h : s.sp.val = 0) : exec .ret s = raiseFault .stackUnderflow none .ret s := by
  simp only [exec, execRet, State.pop_of_empty s h]

/-! ### The sprite (41_display.md R121) -/

/-- The `n` bytes from `I` up: a sprite's rows, or what LD VX, [I] loads. -/
def bytesAtI (s : State) (n : Nat) : List Byte := (List.range n).map fun r => s.mem.byteAt (s.i.toNat + r)

theorem mem_spritePixels_iff_touches (s : State) (x y : Reg) (n : Nibble) (px : Fin 64) (py : Fin 32) :
    (px, py) ∈ spritePixels (s.reg x).toNat (s.reg y).toNat (bytesAtI s n.toNat) ↔ spriteTouches s x y n px py := by
  rw [mem_spritePixels]
  simp [bytesAtI, spriteTouches, spriteBit]

theorem nodup_sprite (s : State) (x0 y0 : Nat) (n : Nibble) : (spritePixels x0 y0 (bytesAtI s n.toNat)).Nodup :=
  nodup_spritePixels _ _ _ (by
    have : n.toNat < 16 := n.isLt
    simp [bytesAtI]; omega)

theorem exec_drw_of_le (s : State) (x y : Reg) (n : Nibble) (h : n = 0 ∨ s.i.toNat + n.toNat ≤ 0x1000) :
    exec (.drwVxVyN x y n) s =
      .next ((s.setFb (drawPixels s.fb (spritePixels (s.reg x).toNat (s.reg y).toNat (bytesAtI s n.toNat))).1).setReg VF
        (flagByte (drawPixels s.fb (spritePixels (s.reg x).toNat (s.reg y).toNat (bytesAtI s n.toNat))).2)) := by
  have hn : n.toNat = 0 ∨ s.i.toNat + n.toNat ≤ 0x1000 := h.imp (fun h => by rw [h]; rfl) id
  simp only [exec, execDrwVxVyN, Memory.readBytes_eq, if_pos hn]
  rfl

/-- The first address out of range, as 60_exceptions.md R181 writes it. -/
theorem firstOutOfRange (a : Nat) : max a 0x1000 = if a > 0xFFF then a else 0x1000 := by split <;> omega

theorem exec_drw_of_gt (s : State) (x y : Reg) (n : Nibble) (h0 : n ≠ 0) (h : s.i.toNat + n.toNat > 0x1000) :
    exec (.drwVxVyN x y n) s =
      raiseFault .memoryOutOfRange (some (if s.i.toNat > 0xFFF then s.i.toNat else 0x1000)) (.drwVxVyN x y n) s := by
  have : n.toNat ≠ 0 := fun h => h0 (BitVec.eq_of_toNat_eq h)
  simp only [exec, execDrwVxVyN, Memory.readBytes_eq, if_neg (show ¬ (n.toNat = 0 ∨ s.i.toNat + n.toNat ≤ 0x1000) by omega),
    firstOutOfRange]

/-! ### Memory moves (43_index_memory.md R153 to R155) -/

/-- Bytes written from an address up, byte by byte. -/
theorem Memory.byteAt_writeImage_eq (m : Memory) (a : Nat) (bs : List Byte) (b : Nat) :
    (m.writeImage a bs).byteAt b = byteWithStored m a bs b := by
  rw [Memory.byteAt_writeImage, byteWithStored]
  by_cases h : a ≤ b
  · by_cases hb : b < a + bs.length
    · rw [dif_pos ⟨h, hb⟩, if_pos h, List.getElem?_eq_getElem (by omega), Option.getD_some]
    · rw [dif_neg fun hc => hb hc.2, if_pos h, List.getElem?_eq_none (by omega), Option.getD_none]
  · rw [dif_neg fun hc => h hc.1, if_neg h]

/-- The values of `V0..VX`, in order (43_index_memory.md R154). -/
theorem regRange_map_reg (s : State) (x : Reg) : (regRange x).map s.reg = regsUpTo s x := by
  have hx : (regRange x) = (List.finRange 16).take (x.val + 1) := by revert x; decide
  have hv : (List.finRange 16).map s.reg = s.v.toList := by
    apply List.ext_getElem (by simp)
    intro k h1 h2
    simp [State.reg, Vector.get_eq_getElem]
  rw [hx, List.map_take, hv, regsUpTo]

theorem exec_ldB_of_le (s : State) (x : Reg) (h : s.i.toNat + 2 ≤ 0xFFF) :
    exec (.ldBVx x) s = .next (s.setMem (s.mem.writeImage s.i.toNat (decimalDigits (s.reg x)))) := by
  simp only [exec, execLdBVx, Memory.writeBytes_eq]
  rw [if_pos (by right; simp [decimalDigits]; omega)]

theorem exec_ldB_of_gt (s : State) (x : Reg) (h : s.i.toNat + 2 > 0xFFF) :
    exec (.ldBVx x) s =
      raiseFault .memoryOutOfRange (some (if s.i.toNat > 0xFFF then s.i.toNat else 0x1000)) (.ldBVx x) s := by
  simp only [exec, execLdBVx, Memory.writeBytes_eq]
  rw [if_neg (by simp [decimalDigits]; omega)]
  simp only [firstOutOfRange]

theorem exec_ldMem_of_le (s : State) (x : Reg) (h : s.i.toNat + x.val ≤ 0xFFF) :
    exec (.ldMemVx x) s = .next (s.setMem (s.mem.writeImage s.i.toNat (regsUpTo s x))) := by
  simp only [exec, execLdMemVx, Memory.writeBytes_eq]
  rw [if_pos (by right; simp; omega)]

theorem exec_ldMem_of_gt (s : State) (x : Reg) (h : s.i.toNat + x.val > 0xFFF) :
    exec (.ldMemVx x) s =
      raiseFault .memoryOutOfRange (some (if s.i.toNat > 0xFFF then s.i.toNat else 0x1000)) (.ldMemVx x) s := by
  have hne : regsUpTo s x ≠ [] := fun h => by simpa using congrArg List.length h
  simp only [exec, execLdMemVx, Memory.writeBytes_eq, regsUpTo_length]
  rw [if_neg (by rintro (h' | h'); exacts [hne h', by omega])]
  simp only [firstOutOfRange]

theorem exec_ldVxMem_of_le (s : State) (x : Reg) (h : s.i.toNat + x.val ≤ 0xFFF) :
    exec (.ldVxMem x) s = .next (s.setRegsFrom 0 (bytesAtI s (x.val + 1))) := by
  simp only [exec, execLdVxMem, Memory.readBytes_eq]
  rw [if_pos (by omega)]
  rfl

theorem exec_ldVxMem_of_gt (s : State) (x : Reg) (h : s.i.toNat + x.val > 0xFFF) :
    exec (.ldVxMem x) s =
      raiseFault .memoryOutOfRange (some (if s.i.toNat > 0xFFF then s.i.toNat else 0x1000)) (.ldVxMem x) s := by
  simp only [exec, execLdVxMem, Memory.readBytes_eq]
  rw [if_neg (by omega)]
  simp only [firstOutOfRange]

/-! ### Keys (44_input_timers.md R165, R166, R168) -/

theorem exec_skp_of_lt (s : State) (x k : Reg) (h : (s.reg x).toNat = k.val) :
    exec (.skpVx x) s = .next (s.skipIf (s.keyDown k)) := by
  simp only [exec, execSkpVx, keyIndex_of_lt h]

theorem exec_skp_of_gt (s : State) (x : Reg) (h : (s.reg x).toNat > 15) :
    exec (.skpVx x) s = raiseFault .keyIndexOutOfRange (some (s.reg x).toNat) (.skpVx x) s := by
  simp only [exec, execSkpVx, keyIndex_of_gt h]

theorem exec_sknp_of_lt (s : State) (x k : Reg) (h : (s.reg x).toNat = k.val) :
    exec (.sknpVx x) s = .next (s.skipIf (!s.keyDown k)) := by
  simp only [exec, execSknpVx, keyIndex_of_lt h]

theorem exec_sknp_of_gt (s : State) (x : Reg) (h : (s.reg x).toNat > 15) :
    exec (.sknpVx x) s = raiseFault .keyIndexOutOfRange (some (s.reg x).toNat) (.sknpVx x) s := by
  simp only [exec, execSknpVx, keyIndex_of_gt h]

theorem exec_ldVxK_of_none (s : State) (x : Reg) (h : ∀ k, s.keyDown k = false) :
    exec (.ldVxK x) s = .next (s.setPc (s.pc - 2)) := by
  have : pressedKeys s = [] := List.eq_nil_iff_forall_not_mem.mpr fun k hk => by simp [h] at hk
  simp only [exec, execLdVxK, keySelect_eq_none.mpr this]

/-- With keys pressed, VX becomes the one that `KEY_SELECT` gives. -/
theorem exec_ldVxK_of_some (s : State) (x k : Reg) (h : keySelect (pressedKeys s) s.pick = some k) :
    exec (.ldVxK x) s = .next (s.setReg x (BitVec.ofNat 8 k.val)) := by
  simp only [exec, execLdVxK, h]

end Sys2Proof.Machine
end

