-- ==== Sys2Proof/Laws/HostOps.lean ====
section
/-! SUPPORT. What the host's operations other than TICK do (10_state.md R43 to R48, 60_exceptions.md R187): each of them on a
running block, and on a faulted one. -/

namespace Sys2Proof.Machine

theorem State.isSome_fault {s : State} (h : s.fault ≠ none) : s.fault.isSome = true := Option.isSome_iff_ne_none.mpr h

theorem State.isSome_fault_eq_false {s : State} (h : s.fault = none) : s.fault.isSome = false := by rw [h]; rfl

/-! ### `LOAD` -/

theorem loadImage_of_faulted {s : State} (h : s.fault ≠ none) (img : List Byte) : loadImage img s = s.setAnswer .rejected :=
  if_pos (State.isSome_fault h)

theorem loadImage_of_long (s : State) {img : List Byte} (h : img.length > 3584) : loadImage img s = s.setAnswer .rejected := by
  unfold loadImage
  rw [if_pos h, ite_self]

theorem loadImage_of_fits {s : State} (h : s.fault = none) {img : List Byte} (hl : img.length ≤ 3584) :
    loadImage img s = (s.setMem (s.mem.writeImage 0x200 img)).setAnswer .ok := by
  unfold loadImage
  rw [State.isSome_fault_eq_false h, if_neg (by simp), if_neg (by omega)]

/-! ### `SET_KEY` -/

theorem setKey_of_running {s : State} (h : s.fault = none) (k : Reg) (p : Bool) :
    setKey k.val p s = .next { s with key := s.key.set k.val p, answer := .nothing } := by
  unfold setKey
  rw [dif_pos k.isLt, State.isSome_fault_eq_false h, if_neg (by simp)]

theorem setKey_of_faulted {s : State} (h : s.fault ≠ none) {k : Nat} (hk : k < 16) (p : Bool) :
    setKey k p s = .next (s.setAnswer .nothing) := by
  unfold setKey
  rw [dif_pos hk, if_pos (State.isSome_fault h)]

theorem setKey_of_gt (s : State) {k : Nat} (hk : 15 < k) (p : Bool) :
    setKey k p s = .refused (.setKeyOutsideContract k) := dif_neg (by omega)

/-- After a key is set, that key has its new level and every other its old one (R44). -/
theorem key_get_set (v : Vector Bool 16) (k j : Reg) (p : Bool) :
    (v.set k.val p).get j = if j = k then p else v.get j := by
  simp only [Vector.get_eq_getElem, Vector.getElem_set, Fin.ext_iff]
  simp only [eq_comm]

/-! ### `TICK_TIMERS` -/

@[simp] theorem countDown_toNat (b : Byte) : (countDown b).toNat = b.toNat - 1 := by
  unfold countDown
  split
  · next h => subst h; rfl
  · next h =>
    have : b.toNat ≠ 0 := fun e => h (BitVec.eq_of_toNat_eq e)
    have : b.toNat < 256 := b.isLt
    bv_omega

theorem byte_beq_one (b : Byte) : (b == 1) = decide (b.toNat = 1) := by
  rw [Bool.eq_iff_iff]
  simp only [beq_iff_eq, decide_eq_true_eq]
  exact ⟨fun h => by rw [h]; rfl, fun h => BitVec.eq_of_toNat_eq h⟩

theorem tickTimers_of_faulted {s : State} (h : s.fault ≠ none) : tickTimers s = s.setAnswer (.alert false) :=
  if_pos (State.isSome_fault h)

theorem tickTimers_of_running {s : State} (h : s.fault = none) :
    tickTimers s =
      { s with dt := countDown s.dt, st := countDown s.st, answer := .alert (decide (s.st.toNat = 1)) } := by
  unfold tickTimers
  rw [State.isSome_fault_eq_false h, if_neg (by simp), byte_beq_one]

/-! ### `READ_FB` -/

theorem flatRows_getElem? (l : List (Vector Bool 64)) (x : Fin 64) (y : Nat) (h : y < l.length) :
    (l.flatMap (·.toList))[x.val + 64 * y]? = some (l[y].get x) := by
  induction l generalizing y with
  | nil => simp at h
  | cons a t ih =>
    rw [List.flatMap_cons]
    cases y with
    | zero => rw [List.getElem?_append_left (by simp)]; simp [Vector.get_eq_getElem]
    | succ y =>
      rw [List.getElem?_append_right (by simp; omega)]
      have := ih y (by simpa using h)
      simpa [show x.val + 64 * (y + 1) - 64 = x.val + 64 * y by omega] using this

@[simp] theorem flatPixels_length (fb : Framebuffer) : (flatPixels fb).length = 2048 := by
  simp [flatPixels, List.length_flatMap]

/-- Element `x + 64*y` of the flat sequence is `FB[x, y]` (10_state.md R32). -/
theorem flatPixels_getElem? (fb : Framebuffer) (x : Fin 64) (y : Fin 32) :
    (flatPixels fb)[x.val + 64 * y.val]? = some (pixelAt fb x y) := by
  have := flatRows_getElem? fb.toList x y.val (by simp)
  simpa [flatPixels, pixelAt, Vector.get_eq_getElem] using this

end Sys2Proof.Machine
end

