-- ==== Sys2Proof/Laws/PerInstr.lean ====
section
/-! SUPPORT. The family of statements made per instruction: its word is selected by its own row of the table (30_encoding.md
R85), whatever its operands. -/

namespace Sys2Proof.Laws

theorem append_and_append {v k : Nat} (a c : BitVec v) (b d : BitVec k) : (a ++ b) &&& (c ++ d) = (a &&& c) ++ (b &&& d) := by
  apply BitVec.eq_of_getLsbD_eq
  intro j _
  simp only [BitVec.getLsbD_and, BitVec.getLsbD_append]
  split <;> rfl

theorem and_ones {v : Nat} (a : BitVec v) : a &&& BitVec.allOnes v = a := by simp

/-- The mask `0xF000` keeps the major opcode. -/
theorem layoutNNN_mask (op : Nibble) (a : Addr) : layoutNNN op a &&& 0xF000#16 = layoutNNN op 0 :=
  (append_and_append op 0xF#4 a 0#12).trans (by rw [show (0xF#4) = BitVec.allOnes 4 from rfl, and_ones]; simp [layoutNNN])

theorem layoutXNN_mask (op : Nibble) (x : Reg) (nn : Byte) : layoutXNN op x nn &&& 0xF000#16 = layoutNNN op 0 :=
  layoutNNN_mask op _

theorem layoutXYN_mask (op : Nibble) (x y : Reg) (n : Nibble) : layoutXYN op x y n &&& 0xF000#16 = layoutNNN op 0 :=
  layoutNNN_mask op _

/-- The mask `0xF0FF` keeps the major opcode and the low byte. -/
theorem layoutXSS_mask (op : Nibble) (x : Reg) (sub : Byte) : layoutXSS op x sub &&& 0xF0FF#16 = layoutXSS op 0 sub :=
  (append_and_append op 0xF#4 (regField x ++ sub) (0x0#4 ++ 0xFF#8)).trans (by
    rw [append_and_append, show (0xF#4) = BitVec.allOnes 4 from rfl, show (0xFF#8) = BitVec.allOnes 8 from rfl, and_ones,
      and_ones]
    simp [layoutXSS, regField])

/-- The mask `0xF00F` keeps the major opcode and `b4`. -/
theorem layoutXYN_maskSub (op : Nibble) (x y : Reg) (n : Nibble) : layoutXYN op x y n &&& 0xF00F#16 = layoutXYN op 0 0 n :=
  (append_and_append op 0xF#4 (regField x ++ (regField y ++ n)) (0x0#4 ++ (0x0#4 ++ 0xF#4))).trans (by
    rw [append_and_append, append_and_append, show (0xF#4) = BitVec.allOnes 4 from rfl, and_ones, and_ones]
    simp [layoutXYN, regField])

end Sys2Proof.Laws

namespace Sys2Proof.Laws.EncodingMatchesRow

/-- The row of the table with the instruction's number selects its word. -/
def Statement (i : Instr) : Prop := ∃ r ∈ opcodeRows, r.num = i.toRaw.row ∧ r.selects (encode i) = true

theorem nop : Statement .nop :=
  ⟨⟨1, 0xFFFF#16, 0x0000#16⟩, by simp [opcodeRows], rfl, rfl⟩
theorem cls : Statement .cls :=
  ⟨⟨2, 0xFFFF#16, 0x00E0#16⟩, by simp [opcodeRows], rfl, rfl⟩
theorem ret : Statement .ret :=
  ⟨⟨3, 0xFFFF#16, 0x00EE#16⟩, by simp [opcodeRows], rfl, rfl⟩
theorem jp (nnn : Addr) : Statement (.jp nnn) :=
  ⟨⟨4, 0xF000#16, 0x1000#16⟩, by simp [opcodeRows], rfl, beq_iff_eq.mpr (layoutNNN_mask ..)⟩
theorem call (nnn : Addr) : Statement (.call nnn) :=
  ⟨⟨5, 0xF000#16, 0x2000#16⟩, by simp [opcodeRows], rfl, beq_iff_eq.mpr (layoutNNN_mask ..)⟩
theorem seVxNn (x : Reg) (nn : Byte) : Statement (.seVxNn x nn) :=
  ⟨⟨6, 0xF000#16, 0x3000#16⟩, by simp [opcodeRows], rfl, beq_iff_eq.mpr (layoutXNN_mask ..)⟩
theorem sneVxNn (x : Reg) (nn : Byte) : Statement (.sneVxNn x nn) :=
  ⟨⟨7, 0xF000#16, 0x4000#16⟩, by simp [opcodeRows], rfl, beq_iff_eq.mpr (layoutXNN_mask ..)⟩
theorem seVxVy (x : Reg) (y : Reg) : Statement (.seVxVy x y) :=
  ⟨⟨8, 0xF00F#16, 0x5000#16⟩, by simp [opcodeRows], rfl, beq_iff_eq.mpr (layoutXYN_maskSub ..)⟩
theorem ldVxNn (x : Reg) (nn : Byte) : Statement (.ldVxNn x nn) :=
  ⟨⟨9, 0xF000#16, 0x6000#16⟩, by simp [opcodeRows], rfl, beq_iff_eq.mpr (layoutXNN_mask ..)⟩
theorem addVxNn (x : Reg) (nn : Byte) : Statement (.addVxNn x nn) :=
  ⟨⟨10, 0xF000#16, 0x7000#16⟩, by simp [opcodeRows], rfl, beq_iff_eq.mpr (layoutXNN_mask ..)⟩
theorem ldVxVy (x : Reg) (y : Reg) : Statement (.ldVxVy x y) :=
  ⟨⟨11, 0xF00F#16, 0x8000#16⟩, by simp [opcodeRows], rfl, beq_iff_eq.mpr (layoutXYN_maskSub ..)⟩
theorem orVxVy (x : Reg) (y : Reg) : Statement (.orVxVy x y) :=
  ⟨⟨12, 0xF00F#16, 0x8001#16⟩, by simp [opcodeRows], rfl, beq_iff_eq.mpr (layoutXYN_maskSub ..)⟩
theorem andVxVy (x : Reg) (y : Reg) : Statement (.andVxVy x y) :=
  ⟨⟨13, 0xF00F#16, 0x8002#16⟩, by simp [opcodeRows], rfl, beq_iff_eq.mpr (layoutXYN_maskSub ..)⟩
theorem xorVxVy (x : Reg) (y : Reg) : Statement (.xorVxVy x y) :=
  ⟨⟨14, 0xF00F#16, 0x8003#16⟩, by simp [opcodeRows], rfl, beq_iff_eq.mpr (layoutXYN_maskSub ..)⟩
theorem addVxVy (x : Reg) (y : Reg) : Statement (.addVxVy x y) :=
  ⟨⟨15, 0xF00F#16, 0x8004#16⟩, by simp [opcodeRows], rfl, beq_iff_eq.mpr (layoutXYN_maskSub ..)⟩
theorem subVxVy (x : Reg) (y : Reg) : Statement (.subVxVy x y) :=
  ⟨⟨16, 0xF00F#16, 0x8005#16⟩, by simp [opcodeRows], rfl, beq_iff_eq.mpr (layoutXYN_maskSub ..)⟩
theorem shrVxVy (x : Reg) (y : Reg) : Statement (.shrVxVy x y) :=
  ⟨⟨17, 0xF00F#16, 0x8006#16⟩, by simp [opcodeRows], rfl, beq_iff_eq.mpr (layoutXYN_maskSub ..)⟩
theorem subnVxVy (x : Reg) (y : Reg) : Statement (.subnVxVy x y) :=
  ⟨⟨18, 0xF00F#16, 0x8007#16⟩, by simp [opcodeRows], rfl, beq_iff_eq.mpr (layoutXYN_maskSub ..)⟩
theorem shlVxVy (x : Reg) (y : Reg) : Statement (.shlVxVy x y) :=
  ⟨⟨19, 0xF00F#16, 0x800E#16⟩, by simp [opcodeRows], rfl, beq_iff_eq.mpr (layoutXYN_maskSub ..)⟩
theorem sneVxVy (x : Reg) (y : Reg) : Statement (.sneVxVy x y) :=
  ⟨⟨20, 0xF00F#16, 0x9000#16⟩, by simp [opcodeRows], rfl, beq_iff_eq.mpr (layoutXYN_maskSub ..)⟩
theorem ldINnn (nnn : Addr) : Statement (.ldINnn nnn) :=
  ⟨⟨21, 0xF000#16, 0xA000#16⟩, by simp [opcodeRows], rfl, beq_iff_eq.mpr (layoutNNN_mask ..)⟩
theorem jpV0Nnn (nnn : Addr) : Statement (.jpV0Nnn nnn) :=
  ⟨⟨22, 0xF000#16, 0xB000#16⟩, by simp [opcodeRows], rfl, beq_iff_eq.mpr (layoutNNN_mask ..)⟩
theorem rndVxNn (x : Reg) (nn : Byte) : Statement (.rndVxNn x nn) :=
  ⟨⟨23, 0xF000#16, 0xC000#16⟩, by simp [opcodeRows], rfl, beq_iff_eq.mpr (layoutXNN_mask ..)⟩
theorem drwVxVyN (x : Reg) (y : Reg) (n : Nibble) : Statement (.drwVxVyN x y n) :=
  ⟨⟨24, 0xF000#16, 0xD000#16⟩, by simp [opcodeRows], rfl, beq_iff_eq.mpr (layoutXYN_mask ..)⟩
theorem skpVx (x : Reg) : Statement (.skpVx x) :=
  ⟨⟨25, 0xF0FF#16, 0xE09E#16⟩, by simp [opcodeRows], rfl, beq_iff_eq.mpr (layoutXSS_mask ..)⟩
theorem sknpVx (x : Reg) : Statement (.sknpVx x) :=
  ⟨⟨26, 0xF0FF#16, 0xE0A1#16⟩, by simp [opcodeRows], rfl, beq_iff_eq.mpr (layoutXSS_mask ..)⟩
theorem ldVxDt (x : Reg) : Statement (.ldVxDt x) :=
  ⟨⟨27, 0xF0FF#16, 0xF007#16⟩, by simp [opcodeRows], rfl, beq_iff_eq.mpr (layoutXSS_mask ..)⟩
theorem ldVxK (x : Reg) : Statement (.ldVxK x) :=
  ⟨⟨28, 0xF0FF#16, 0xF00A#16⟩, by simp [opcodeRows], rfl, beq_iff_eq.mpr (layoutXSS_mask ..)⟩
theorem ldDtVx (x : Reg) : Statement (.ldDtVx x) :=
  ⟨⟨29, 0xF0FF#16, 0xF015#16⟩, by simp [opcodeRows], rfl, beq_iff_eq.mpr (layoutXSS_mask ..)⟩
theorem ldStVx (x : Reg) : Statement (.ldStVx x) :=
  ⟨⟨30, 0xF0FF#16, 0xF018#16⟩, by simp [opcodeRows], rfl, beq_iff_eq.mpr (layoutXSS_mask ..)⟩
theorem addIVx (x : Reg) : Statement (.addIVx x) :=
  ⟨⟨31, 0xF0FF#16, 0xF01E#16⟩, by simp [opcodeRows], rfl, beq_iff_eq.mpr (layoutXSS_mask ..)⟩
theorem ldFVx (x : Reg) : Statement (.ldFVx x) :=
  ⟨⟨32, 0xF0FF#16, 0xF029#16⟩, by simp [opcodeRows], rfl, beq_iff_eq.mpr (layoutXSS_mask ..)⟩
theorem ldBVx (x : Reg) : Statement (.ldBVx x) :=
  ⟨⟨33, 0xF0FF#16, 0xF033#16⟩, by simp [opcodeRows], rfl, beq_iff_eq.mpr (layoutXSS_mask ..)⟩
theorem ldMemVx (x : Reg) : Statement (.ldMemVx x) :=
  ⟨⟨34, 0xF0FF#16, 0xF055#16⟩, by simp [opcodeRows], rfl, beq_iff_eq.mpr (layoutXSS_mask ..)⟩
theorem ldVxMem (x : Reg) : Statement (.ldVxMem x) :=
  ⟨⟨35, 0xF0FF#16, 0xF065#16⟩, by simp [opcodeRows], rfl, beq_iff_eq.mpr (layoutXSS_mask ..)⟩

end Sys2Proof.Laws.EncodingMatchesRow
end

