-- ==== Sys2Proof/Laws/Step.lean ====
section
/-! SUPPORT. What a TICK and a step can do, said once: the cases of a TICK, and the cases of a step. -/

namespace Sys2Proof.Machine

/-- On a faulted block a TICK returns the stored fault and nothing else (10_state.md R48). -/
theorem tick_of_faulted {s : State} {f : FaultRecord} (h : s.fault = some f) (rnd : Byte) (pick : Nat) :
    tick rnd pick s = .next ((s.beginTick rnd pick).setAnswer (.fault f.cause)) := by
  simp only [tick, State.beginTick_fault, h]

/-- A TICK whose fetch faults (30_encoding.md R81). -/
theorem tick_of_fetchFault {s : State} (h : s.fault = none) (hp : s.pc.toNat > 0xFFE) (rnd : Byte) (pick : Nat) :
    tick rnd pick s = .next (enterFault .fetchOutOfRange none none (s.beginTick rnd pick)) := by
  simp only [tick, State.beginTick_fault, h, fetch_of_gt (s := s.beginTick rnd pick) hp]

/-- The state a TICK executes its instruction on: inputs recorded, `PC` past the word, the answer "ok" unless the instruction
faults. -/
def fetched (rnd : Byte) (pick : Nat) (s : State) : State := (((s.beginTick rnd pick).setPc (s.pc + 2)).setAnswer .ok)

/-- A TICK that fetches an unsupported word (30_encoding.md R87). -/
theorem tick_of_unsupported {s : State} (h : s.fault = none) (hp : s.pc.toNat ≤ 0xFFE)
    (hw : decodeWord (s.mem.wordAt s.pc.toNat) = none) (rnd : Byte) (pick : Nat) :
    tick rnd pick s =
      .next (((s.beginTick rnd pick).setPc (s.pc + 2)).setAnswer (.unsupported (s.mem.wordAt s.pc.toNat))) := by
  simp only [tick, State.beginTick_fault, h, fetch_of_le (s := s.beginTick rnd pick) hp, decodeAndExecute,
    State.beginTick_pc, State.beginTick_mem, hw]

/-- A TICK that fetches an instruction executes it (10_state.md R45). -/
theorem tick_of_instr {s : State} {i : Instr} (h : s.fault = none) (hp : s.pc.toNat ≤ 0xFFE)
    (hw : decodeWord (s.mem.wordAt s.pc.toNat) = some i) (rnd : Byte) (pick : Nat) :
    tick rnd pick s = exec i (fetched rnd pick s) := by
  simp only [tick, State.beginTick_fault, h, fetch_of_le (s := s.beginTick rnd pick) hp, decodeAndExecute,
    State.beginTick_pc, State.beginTick_mem, hw, fetched]

/-- The cases of a TICK, in the order of 60_exceptions.md R184. -/
theorem tick_cases {s t : State} {rnd : Byte} {pick : Nat} (h : tick rnd pick s = .next t) :
    (∃ f, s.fault = some f ∧ t = (s.beginTick rnd pick).setAnswer (.fault f.cause)) ∨
    (s.fault = none ∧ s.pc.toNat > 0xFFE ∧ t = enterFault .fetchOutOfRange none none (s.beginTick rnd pick)) ∨
    (s.fault = none ∧ s.pc.toNat ≤ 0xFFE ∧ decodeWord (s.mem.wordAt s.pc.toNat) = none ∧
      t = ((s.beginTick rnd pick).setPc (s.pc + 2)).setAnswer (.unsupported (s.mem.wordAt s.pc.toNat))) ∨
    (∃ i, s.fault = none ∧ s.pc.toNat ≤ 0xFFE ∧ decodeWord (s.mem.wordAt s.pc.toNat) = some i ∧
      exec i (fetched rnd pick s) = .next t) := by
  cases hf : s.fault with
  | some f =>
    rw [tick_of_faulted hf] at h
    exact .inl ⟨f, rfl, (Host.Outcome.next.inj h).symm⟩
  | none =>
    by_cases hp : s.pc.toNat > 0xFFE
    · rw [tick_of_fetchFault hf hp] at h
      exact .inr (.inl ⟨rfl, hp, (Host.Outcome.next.inj h).symm⟩)
    · have hp : s.pc.toNat ≤ 0xFFE := by omega
      cases hw : decodeWord (s.mem.wordAt s.pc.toNat) with
      | none =>
        rw [tick_of_unsupported hf hp hw] at h
        exact .inr (.inr (.inl ⟨rfl, hp, rfl, (Host.Outcome.next.inj h).symm⟩))
      | some i =>
        rw [tick_of_instr hf hp hw] at h
        exact .inr (.inr (.inr ⟨i, rfl, hp, rfl, h⟩))

/-- The cases of a step: the oldest operation the host has asked for, or a TICK with free inputs (log entry 1). -/
theorem step_cases (s : State) :
    (∃ op rest, s.pending = op :: rest ∧ step s = perform op { s with pending := rest }) ∨
    (s.pending = [] ∧ step s = tick (Config.freeRnd s.ticks) (Config.freePick s.ticks) s) := by
  unfold step nextOperation
  cases s.pending with
  | nil => exact .inr ⟨rfl, rfl⟩
  | cons op rest => exact .inl ⟨op, rest, rfl, rfl⟩

end Sys2Proof.Machine
end

