-- ==== Sys2Proof/Tests/Slice0.lean ====
section
/-! SUPPORT. Tests on fixed values, each expected result taken from the spec (its vectors V-.. in 95_test_vectors.md, or the rule
named), and the witnesses of the statements' hypotheses. -/

namespace Sys2Proof.Tests

open Sys2Proof.Machine

/-! ### Well-formedness: one ill-formed term for each check (30_encoding.md R82, R84, R85) -/

theorem test_wellFormed_accepts : (RawInstr.mk 24 15 15 15 255 4095).wellFormed = true := by decide
theorem test_wellFormed_row : (RawInstr.mk 36 0 0 0 0 0).wellFormed = false := by decide
theorem test_wellFormed_row_zero : (RawInstr.mk 0 0 0 0 0 0).wellFormed = false := by decide
theorem test_wellFormed_x : (RawInstr.mk 24 16 0 0 0 0).wellFormed = false := by decide
theorem test_wellFormed_y : (RawInstr.mk 24 0 16 0 0 0).wellFormed = false := by decide
theorem test_wellFormed_n : (RawInstr.mk 24 0 0 16 0 0).wellFormed = false := by decide
theorem test_wellFormed_nn : (RawInstr.mk 6 0 0 0 256 0).wellFormed = false := by decide
theorem test_wellFormed_nnn : (RawInstr.mk 4 0 0 0 0 4096).wellFormed = false := by decide
theorem test_toInstr_refuses : (RawInstr.mk 4 0 0 0 0 4096).toInstr = none := by decide

/-! ### Decoding: a word of every constructor, bit by bit from the layouts and the table of 30_encoding.md R83, R85 -/

theorem test_decode_nop : decodeWord 0b0000_0000_0000_0000#16 = some .nop := by decide
theorem test_decode_cls : decodeWord 0b0000_0000_1110_0000#16 = some .cls := by decide
theorem test_decode_ret : decodeWord 0b0000_0000_1110_1110#16 = some .ret := by decide
theorem test_decode_jp : decodeWord 0b0001_0010_0011_0100#16 = some (.jp 0x234) := by decide
theorem test_decode_call : decodeWord 0b0010_1111_1110_0001#16 = some (.call 0xFE1) := by decide
theorem test_decode_seVxNn : decodeWord 0b0011_0011_0010_1010#16 = some (.seVxNn 3 0x2A) := by decide
theorem test_decode_sneVxNn : decodeWord 0b0100_0011_0010_1011#16 = some (.sneVxNn 3 0x2B) := by decide
theorem test_decode_seVxVy : decodeWord 0b0101_0001_0010_0000#16 = some (.seVxVy 1 2) := by decide
theorem test_decode_ldVxNn : decodeWord 0b0110_1111_1000_0101#16 = some (.ldVxNn 15 0x85) := by decide
theorem test_decode_addVxNn : decodeWord 0b0111_0001_0000_0010#16 = some (.addVxNn 1 0x02) := by decide
theorem test_decode_ldVxVy : decodeWord 0b1000_0001_0010_0000#16 = some (.ldVxVy 1 2) := by decide
theorem test_decode_orVxVy : decodeWord 0b1000_0001_0010_0001#16 = some (.orVxVy 1 2) := by decide
theorem test_decode_andVxVy : decodeWord 0b1000_0001_0010_0010#16 = some (.andVxVy 1 2) := by decide
theorem test_decode_xorVxVy : decodeWord 0b1000_0001_0010_0011#16 = some (.xorVxVy 1 2) := by decide
theorem test_decode_addVxVy : decodeWord 0b1000_1111_0001_0100#16 = some (.addVxVy 15 1) := by decide
theorem test_decode_subVxVy : decodeWord 0b1000_0001_0010_0101#16 = some (.subVxVy 1 2) := by decide
theorem test_decode_shrVxVy : decodeWord 0b1000_0001_0010_0110#16 = some (.shrVxVy 1 2) := by decide
theorem test_decode_subnVxVy : decodeWord 0b1000_0001_0010_0111#16 = some (.subnVxVy 1 2) := by decide
theorem test_decode_shlVxVy : decodeWord 0b1000_0001_0010_1110#16 = some (.shlVxVy 1 2) := by decide
theorem test_decode_sneVxVy : decodeWord 0b1001_0001_0010_0000#16 = some (.sneVxVy 1 2) := by decide
theorem test_decode_ldINnn : decodeWord 0b1010_1011_0000_0001#16 = some (.ldINnn 0xB01) := by decide
theorem test_decode_jpV0Nnn : decodeWord 0b1011_1111_1000_0000#16 = some (.jpV0Nnn 0xF80) := by decide
theorem test_decode_rndVxNn : decodeWord 0b1100_0011_0000_1111#16 = some (.rndVxNn 3 0x0F) := by decide
theorem test_decode_drwVxVyN : decodeWord 0b1101_0001_0010_0100#16 = some (.drwVxVyN 1 2 4) := by decide
theorem test_decode_skpVx : decodeWord 0b1110_0001_1001_1110#16 = some (.skpVx 1) := by decide
theorem test_decode_sknpVx : decodeWord 0b1110_0001_1010_0001#16 = some (.sknpVx 1) := by decide
theorem test_decode_ldVxDt : decodeWord 0b1111_0011_0000_0111#16 = some (.ldVxDt 3) := by decide
theorem test_decode_ldVxK : decodeWord 0b1111_0010_0000_1010#16 = some (.ldVxK 2) := by decide
theorem test_decode_ldDtVx : decodeWord 0b1111_1000_0001_0101#16 = some (.ldDtVx 8) := by decide
theorem test_decode_ldStVx : decodeWord 0b1111_0100_0001_1000#16 = some (.ldStVx 4) := by decide
theorem test_decode_addIVx : decodeWord 0b1111_0010_0001_1110#16 = some (.addIVx 2) := by decide
theorem test_decode_ldFVx : decodeWord 0b1111_1010_0010_1001#16 = some (.ldFVx 10) := by decide
theorem test_decode_ldBVx : decodeWord 0b1111_0001_0011_0011#16 = some (.ldBVx 1) := by decide
theorem test_decode_ldMemVx : decodeWord 0b1111_0010_0101_0101#16 = some (.ldMemVx 2) := by decide
theorem test_decode_ldVxMem : decodeWord 0b1111_0010_0110_0101#16 = some (.ldVxMem 2) := by decide

/-- V-E5 to V-E10. -/
theorem test_decode_unsupported :
    [0x5121#16, 0x00E1#16, 0x0123#16, 0x8008#16, 0xE09F#16, 0xF000#16].map decodeWord = List.replicate 6 none := by decide
theorem test_decode_bytes_big_endian : decodeBytes [0x12, 0x34, 0x56] = .ok (.jp 0x234, [0x56]) := by decide
theorem test_decode_bytes_truncated : decodeBytes [0x12] = .error .truncated := by decide
theorem test_decode_bytes_unsupported : decodeBytes [0x51, 0x21] = .error (.unsupported 0x5121) := by decide
theorem test_encode_drw : encodeBytes (.drwVxVyN 1 2 4) = [0xD1, 0x24] := by decide
theorem test_decodeTableWord : decodeTableWord 16 0xD124 = some (.drwVxVyN 1 2 4) := by decide

/-! ### One step on a small state

`after i s f` is the field `f` of the state `exec i s` answers. The fetch has already moved `PC`, so an instruction at 0x200
runs with `PC = 0x202`. -/

/-- What `f` reads in the next state of an instruction. -/
def after {α : Type} (i : Instr) (s : State) (f : State → α) : Option α :=
  match exec i s with
  | .next t => some (f t)
  | _ => none

/-- What `f` reads in the next state of a step of the machine. -/
def afterStep {α : Type} (s : State) (f : State → α) : Option α :=
  match step s with
  | .next t => some (f t)
  | _ => none

/-- A reset block that has fetched the word at 0x200. -/
def at200 : State := State.reset.setPc 0x202

/-- Bytes of memory from an address up. -/
def bytesFrom (s : State) (a n : Nat) : List Byte := (List.range n).map fun k => s.mem.byteAt (a + k)

/-- With some bytes in memory. -/
def withBytes (s : State) (a : Nat) (bs : List Byte) : State := s.setMem (s.mem.writeImage a bs)

/-- V-E12. -/
theorem test_nop : after .nop at200 (·.pc) = some 0x202 := by decide
/-- V-D1. -/
theorem test_cls : after .cls (({ at200 with fb := flipPixel at200.fb 63 31 } : State).setReg VF 7) (fun t => (pixelAt t.fb 63 31, t.reg VF)) =
    some (false, 7) := by decide
/-- V-C3. -/
theorem test_ret : after .ret { at200 with stack := at200.stack.set 0 0x206, sp := 1 } (fun t => (t.pc, t.sp, t.stack.get 0)) =
    some (0x206, 0, 0x206) := by decide
/-- V-C4. -/
theorem test_ret_underflow : after .ret at200 (fun t => (t.fault, t.pc)) = some (some ⟨.stackUnderflow, 0x200, some 0x00EE, none⟩, 0x200) := by decide
/-- V-C1. -/
theorem test_jp : after (.jp 0x234) at200 (·.pc) = some 0x234 := by decide
/-- V-C2. -/
theorem test_call : after (.call 0x210) (at200.setPc 0x206) (fun t => (t.pc, t.sp, t.stack.get 0)) = some (0x210, 1, 0x206) := by decide
/-- V-C16. -/
theorem test_call_overflow : after (.call 0x200) { at200 with sp := 16 } (fun t => (t.fault, t.pc, t.sp)) =
    some (some ⟨.stackOverflow, 0x200, some 0x2200, none⟩, 0x200, 16) := by decide
/-- V-C5. -/
theorem test_seVxNn : after (.seVxNn 3 0x2A) (at200.setReg 3 0x2A) (·.pc) = some 0x204 := by decide
/-- V-C6. -/
theorem test_seVxNn_no_skip : after (.seVxNn 3 0x2B) (at200.setReg 3 0x2A) (·.pc) = some 0x202 := by decide
/-- V-C7. -/
theorem test_sneVxNn_no_skip : after (.sneVxNn 3 0x2A) (at200.setReg 3 0x2A) (·.pc) = some 0x202 := by decide
/-- V-C8. -/
theorem test_sneVxNn : after (.sneVxNn 3 0x2B) (at200.setReg 3 0x2A) (·.pc) = some 0x204 := by decide
/-- V-C9. -/
theorem test_seVxVy : after (.seVxVy 1 2) ((at200.setReg 1 7).setReg 2 7) (·.pc) = some 0x204 := by decide
/-- V-C10. -/
theorem test_sneVxVy : after (.sneVxVy 1 2) ((at200.setReg 1 7).setReg 2 8) (·.pc) = some 0x204 := by decide
/-- V-C11. -/
theorem test_sneVxVy_no_skip : after (.sneVxVy 1 2) ((at200.setReg 1 7).setReg 2 7) (·.pc) = some 0x202 := by decide
/-- V-C12. -/
theorem test_jpV0Nnn : after (.jpV0Nnn 0x300) (at200.setReg 0 0x10) (·.pc) = some 0x310 := by decide
/-- V-C13. -/
theorem test_jpV0Nnn_above : after (.jpV0Nnn 0xF80) (at200.setReg 0 0xFF) (·.pc) = some 0x107F := by decide
/-- V-D9. -/
theorem test_drw_wraps : after (.drwVxVyN 1 2 1) (withBytes (((at200.setReg 1 0x46).setReg 2 0).setI 0x300) 0x300 [0x80])
    (fun t => (pixelAt t.fb 6 0, pixelAt t.fb 7 0, t.reg VF, t.i)) = some (true, false, 0, 0x300) := by decide
/-- V-D7. -/
theorem test_drw_collision : after (.drwVxVyN 0 0 1) (withBytes ((at200.setFb (flipPixel at200.fb 0 0)).setI 0x300) 0x300 [0xC0])
    (fun t => (pixelAt t.fb 0 0, pixelAt t.fb 1 0, t.reg VF)) = some (false, true, 1) := by decide
/-- V-A1. -/
theorem test_ldVxNn : after (.ldVxNn 0 5) at200 (·.reg 0) = some 5 := by decide
/-- V-A3. -/
theorem test_addVxNn_no_flag : after (.addVxNn 1 2) ((at200.setReg 1 0xFF).setReg VF 0x55) (fun t => (t.reg 1, t.reg VF)) = some (1, 0x55) := by decide
/-- V-A4. -/
theorem test_ldVxVy : after (.ldVxVy 1 2) (at200.setReg 2 0x3C) (·.reg 1) = some 0x3C := by decide
/-- V-A5. -/
theorem test_orVxVy : after (.orVxVy 1 2) (((at200.setReg 1 0xF0).setReg 2 0x0F).setReg VF 0x55) (fun t => (t.reg 1, t.reg VF)) =
    some (0xFF, 0x55) := by decide
/-- V-A6. -/
theorem test_andVxVy : after (.andVxVy 1 2) ((at200.setReg 1 0xF0).setReg 2 0x3C) (·.reg 1) = some 0x30 := by decide
/-- V-A7. -/
theorem test_xorVxVy : after (.xorVxVy 1 2) ((at200.setReg 1 0xF0).setReg 2 0x3C) (·.reg 1) = some 0xCC := by decide
/-- V-A9. -/
theorem test_addVxVy_carry : after (.addVxVy 1 2) ((at200.setReg 1 0xFF).setReg 2 1) (fun t => (t.reg 1, t.reg VF)) = some (0, 1) := by decide
/-- V-A11. -/
theorem test_addVxVy_flag_wins : after (.addVxVy 15 1) ((at200.setReg VF 0x80).setReg 1 0x80) (·.reg VF) = some 1 := by decide
/-- V-A12. -/
theorem test_subVxVy : after (.subVxVy 1 2) ((at200.setReg 1 5).setReg 2 7) (fun t => (t.reg 1, t.reg VF)) = some (0xFE, 0) := by decide
/-- V-A13. -/
theorem test_subVxVy_equal : after (.subVxVy 1 1) (at200.setReg 1 0x42) (fun t => (t.reg 1, t.reg VF)) = some (0, 1) := by decide
/-- V-A16. -/
theorem test_shrVxVy_ignores_y : after (.shrVxVy 1 2) ((at200.setReg 1 4).setReg 2 0xFF) (fun t => (t.reg 1, t.reg VF, t.reg 2)) = some (2, 0, 0xFF) := by decide
/-- V-A17. -/
theorem test_shrVxVy_flag_wins : after (.shrVxVy 15 0) (at200.setReg VF 3) (·.reg VF) = some 1 := by decide
/-- V-A21. -/
theorem test_subnVxVy : after (.subnVxVy 1 2) ((at200.setReg 1 5).setReg 2 7) (fun t => (t.reg 1, t.reg VF)) = some (2, 1) := by decide
/-- V-A22. -/
theorem test_subnVxVy_borrow : after (.subnVxVy 0 1) ((at200.setReg 0 1).setReg 1 0) (fun t => (t.reg 0, t.reg VF)) = some (0xFF, 0) := by decide
/-- V-A18. -/
theorem test_shlVxVy : after (.shlVxVy 1 0) (at200.setReg 1 0x81) (fun t => (t.reg 1, t.reg VF)) = some (2, 1) := by decide
/-- V-A19. -/
theorem test_shlVxVy_no_bit : after (.shlVxVy 1 0) (at200.setReg 1 0x7F) (fun t => (t.reg 1, t.reg VF)) = some (0xFE, 0) := by decide
/-- V-A24. -/
theorem test_rndVxNn : after (.rndVxNn 3 0x0F) { at200 with rnd := 0xB6 } (·.reg 3) = some 6 := by decide
/-- V-M1. -/
theorem test_ldINnn : after (.ldINnn 0x300) at200 (·.i) = some 0x300 := by decide
/-- V-M16. -/
theorem test_addIVx_wraps : after (.addIVx 1) ((at200.setReg 1 1).setI 0xFFFF) (fun t => (t.i, t.reg VF)) = some (0, 0) := by decide
/-- V-M17. -/
theorem test_addIVx_no_flag : after (.addIVx 1) (((at200.setReg 1 1).setI 0x0FFF).setReg VF 0x77) (fun t => (t.i, t.reg VF)) = some (0x1000, 0x77) := by decide
/-- V-M3. -/
theorem test_ldFVx : after (.ldFVx 0) (at200.setReg 0 0x0A) (·.i) = some 0x32 := by decide
/-- V-M4. -/
theorem test_ldFVx_not_masked : after (.ldFVx 1) (at200.setReg 1 0x10) (·.i) = some 0x50 := by decide
/-- V-M7. -/
theorem test_ldBVx : after (.ldBVx 1) ((at200.setReg 1 0xFF).setI 0xFFD) (fun t => bytesFrom t 0xFFD 3) = some [2, 5, 5] := by decide
/-- V-M8. -/
theorem test_ldBVx_out_of_range : after (.ldBVx 1) ((at200.setReg 1 0x7B).setI 0xFFE) (fun t => (t.fault, bytesFrom t 0xFFE 2)) =
    some (some ⟨.memoryOutOfRange, 0x200, some 0xF133, some 0x1000⟩, [0, 0]) := by decide
/-- V-M11. -/
theorem test_ldMemVx : after (.ldMemVx 2) ((((at200.setReg 0 0xAA).setReg 1 0xBB).setReg 2 0xCC).setI 0x300)
    (fun t => (bytesFrom t 0x2FF 5, t.i)) = some ([0, 0xAA, 0xBB, 0xCC, 0], 0x300) := by decide
/-- V-M18. -/
theorem test_ldMemVx_font : after (.ldMemVx 0) (at200.setReg 0 0xFF) (fun t => t.mem.byteAt 0) = some 0xFF := by decide
/-- V-M14. -/
theorem test_ldVxMem : after (.ldVxMem 2) (withBytes (at200.setI 0x300) 0x300 [2, 5, 4, 9]) (fun t => (t.reg 0, t.reg 1, t.reg 2, t.reg 3)) =
    some (2, 5, 4, 0) := by decide
/-- V-M15. -/
theorem test_ldVxMem_out_of_range : after (.ldVxMem 1) (withBytes (at200.setI 0xFFF) 0xFFF [7]) (fun t => (t.reg 0, t.fault)) =
    some (0, some ⟨.memoryOutOfRange, 0x200, some 0xF165, some 0x1000⟩) := by decide
/-- V-K1. -/
theorem test_skpVx : after (.skpVx 1) { at200.setReg 1 5 with key := at200.key.set 5 true } (·.pc) = some 0x204 := by decide
/-- V-K4. -/
theorem test_skpVx_out_of_range : after (.skpVx 1) (at200.setReg 1 16) (fun t => (t.fault, t.pc)) =
    some (some ⟨.keyIndexOutOfRange, 0x200, some 0xE19E, some 16⟩, 0x200) := by decide
/-- V-K3. -/
theorem test_sknpVx : after (.sknpVx 1) (at200.setReg 1 5) (·.pc) = some 0x204 := by decide
/-- V-K5. -/
theorem test_sknpVx_out_of_range : after (.sknpVx 1) (at200.setReg 1 0xFF) (·.fault) = some (some ⟨.keyIndexOutOfRange, 0x200, some 0xE1A1, some 0xFF⟩) := by decide
/-- V-K9. -/
theorem test_ldVxDt : after (.ldVxDt 3) (at200.setDt 0x3C) (·.reg 3) = some 0x3C := by decide
/-- V-K6. -/
theorem test_ldVxK_waits : after (.ldVxK 2) at200 (fun t => (t.pc, t.reg 2)) = some (0x200, 0) := by decide
/-- V-K7. -/
theorem test_ldVxK_takes : after (.ldVxK 2) { at200 with key := at200.key.set 7 true, pick := 5 } (fun t => (t.pc, t.reg 2)) = some (0x202, 7) := by decide
/-- V-K11. -/
theorem test_ldDtVx : after (.ldDtVx 0) (at200.setReg 0 3) (·.dt) = some 3 := by decide
/-- V-K12. -/
theorem test_ldStVx : after (.ldStVx 4) (at200.setReg 4 1) (·.st) = some 1 := by decide

/-! ### The host's operations -/

/-- V-T2 and V-T3. -/
theorem test_tickTimers :
    [(0, 1), (5, 2), (0, 0)].map (fun p : Byte × Byte =>
      let t := tickTimers ((State.reset.setDt p.1).setSt p.2); (t.dt, t.st, t.answer)) =
    [(0, 0, .alert true), (4, 1, .alert false), (0, 0, .alert false)] := by decide
/-- V-E4: the fetch faults at 0xFFF. -/
theorem test_step_fetch_fault :
    afterStep { State.reset with pc := 0xFFF, pending := [.tick 0 0] } (fun t => (t.fault, t.pc)) =
    some (some ⟨.fetchOutOfRange, 0xFFF, none, none⟩, 0xFFF) := by decide
/-- V-E2: a word at an odd address. -/
theorem test_step_odd_address :
    afterStep { withBytes State.reset 0x201 [0x12, 0x34] with pc := 0x201, pending := [.tick 0 0] } (fun t => (t.answer, t.pc)) =
    some (.ok, 0x234) := by decide
/-- V-E5. -/
theorem test_step_unsupported :
    afterStep { withBytes State.reset 0x200 [0x51, 0x21] with pending := [.tick 0 0] } (fun t => (t.answer, t.pc, t.fault)) =
    some (.unsupported 0x5121, 0x202, none) := by decide
/-- V-H2. -/
theorem test_load_rejected : (loadImage (List.replicate 3585 1) State.reset).answer = .rejected := by
  rw [loadImage_of_long _ (by rw [List.length_replicate]; decide)]; rfl
/-- A word placed for the next step is the instruction it runs: LD V0, 5 (V-A1). -/
theorem test_withFetchWord : afterStep (State.reset.withFetchWord 16 0x6005) (fun t => (t.reg 0, t.pc)) = some (5, 0x202) := by
  decide

/-! ### Witnesses: for each statement with hypotheses, states and operands that meet them, clause by clause, at the ends of their
ranges -/

/-- A block that is faulted (V-E4). -/
def faulted : State := { State.reset with pc := 0xFFF, fault := some ⟨.fetchOutOfRange, 0xFFF, none, none⟩ }

/-- A block at the last word of memory, which holds `hi lo`. -/
def atTop (hi lo : Byte) : State := withBytes { State.reset with pc := 0xFFE } 0xFFE [hi, lo]

/-- O1. -/
theorem witness_wellFormed_instruction : (Instr.drwVxVyN 15 0 15).WellFormed = true := by decide
/-- O2, O3: a supported word and its row. -/
theorem witness_decoded_word :
    decodeWord 0x8FFE = some (.shlVxVy 15 15) ∧ (⟨19, 0xF00F, 0x800E⟩ : OpcodeRow) ∈ opcodeRows := by decide
/-- O6: the last `PC` that fetches, and the first that does not. -/
theorem witness_fetch_bounds :
    (atTop 0 0).pc.toNat ≤ 0xFFE ∧ ({ State.reset with pc := 0xFFF } : State).pc.toNat > 0xFFE ∧ State.reset.fault = none := by
  decide
/-- O7: both clauses, at the last word of memory. -/
theorem witness_step_decodes :
    let s := atTop 0x60 0x05;
    let q : State := { s with pending := [.tick 1 2] };
    (s.fault = none ∧ s.pc.toNat ≤ 0xFFE ∧
      decodeBytes [s.mem.byteAt s.pc.toNat, s.mem.byteAt (s.pc.toNat + 1)] = .ok (.ldVxNn 0 5, []) ∧ s.pending = []) ∧
    (q.fault = none ∧ q.pc.toNat ≤ 0xFFE ∧
      decodeBytes [q.mem.byteAt q.pc.toNat, q.mem.byteAt (q.pc.toNat + 1)] = .ok (.ldVxNn 0 5, []) ∧
      q.pending = .tick 1 2 :: []) := by decide
/-- O8, O9: each clause: no fetch, an unsupported word, an instruction that faults, one that does not. -/
theorem witness_tick_outcomes :
    (({ State.reset with pc := 0xFFF } : State).fault = none ∧ ({ State.reset with pc := 0xFFF } : State).pc.toNat > 0xFFE) ∧
    (let s := atTop 0x51 0x21;
      s.fault = none ∧ s.pc.toNat ≤ 0xFFE ∧ decodeWord (s.mem.wordAt s.pc.toNat) = none) ∧
    (let s := atTop 0x00 0xEE;
      s.fault = none ∧ s.pc.toNat ≤ 0xFFE ∧ decodeWord (s.mem.wordAt s.pc.toNat) = some .ret ∧
        faultRaised .ret s = some (.stackUnderflow, none)) ∧
    (let s := atTop 0x60 0x05;
      s.fault = none ∧ s.pc.toNat ≤ 0xFFE ∧ decodeWord (s.mem.wordAt s.pc.toNat) = some (.ldVxNn 0 5) ∧
        faultRaised (.ldVxNn 0 5) s = none) := by decide
/-- O10: a fetch that faults, and an instruction that does. -/
theorem witness_fault_entry :
    (∃ t f, tick 0 0 { State.reset with pc := 0xFFF } = .next t ∧ t.fault = some f) ∧
    (atTop 0x00 0xEE).fault = none ∧ (∃ t f, tick 0 0 (atTop 0x00 0xEE) = .next t ∧ t.fault = some f) :=
  ⟨⟨_, _, rfl, rfl⟩, rfl, _, _, rfl, rfl⟩
/-- O11, O12, and the faulted clauses of O41, O44, O45. -/
theorem witness_faulted_block : faulted.fault = some ⟨.fetchOutOfRange, 0xFFF, none, none⟩ ∧ faulted.fault ≠ none := by decide
/-- O12: a faulted block's step with nothing asked for, and with a RESET. -/
theorem witness_faulted_step :
    (∃ t, step faulted = .next t) ∧ (∃ t, step { faulted with pending := [.reset] } = .next t ∧ t.fault = none) :=
  ⟨⟨_, rfl⟩, _, rfl, rfl⟩
/-- O14: an instruction that faults, and the storing and stack forms where they do not, with the addresses beside the bytes
stored, a slot that is pushed and its neighbour. -/
theorem witness_frames :
    faultRaised .ret State.reset ≠ none ∧
    (let s : State := { State.reset with i := 0xFF0 };
      faultRaised (.ldMemVx 14) s = none ∧ 0xFEF < s.i.toNat ∧ s.i.toNat + bytesStored (.ldMemVx 14) ≤ 0xFFF) ∧
    (let s : State := { State.reset with i := 0xFFC };
      faultRaised (.ldBVx 0) s = none ∧ 0xFFB < s.i.toNat ∧ s.i.toNat + bytesStored (.ldBVx 0) ≤ 0xFFF) ∧
    (let s : State := { State.reset with sp := 15 };
      faultRaised (.call 0) s = none ∧ (14 : Fin 16).val ∉ slotsWritten (.call 0) s ∧ 15 ∈ slotsWritten (.call 0) s ∧
        faultRaised .ret s = none ∧ (14 : Fin 16).val ∉ slotsWritten .ret s) := by decide
/-- O15: registers that an instruction neither reads nor writes, only writes, and only reads. -/
theorem witness_registers :
    (∃ t, exec (.ldVxVy 14 0) State.reset = .next t) ∧ (13 : Reg) ∉ regsWritten (.ldVxVy 14 0) ∧
    (0 : Reg) ∉ regsWritten (.ldVxVy 14 0) ∧ (14 : Reg) ∉ regsRead (.ldVxVy 14 0) ∧ (13 : Reg) ∉ regsRead (.ldVxVy 14 0) ∧
    (15 : Reg) ∉ regsRead (.ldVxMem 15) := ⟨⟨_, rfl⟩, by decide, by decide, by decide, by decide, by decide⟩
/-- O16: an instruction of each clause. -/
theorem witness_flags :
    Instr.shlVxVy 15 15 ∈ flagSetting 15 15 0 ∧ Instr.drwVxVyN 15 15 15 ∈ flagSetting 15 15 15 ∧
    (∀ x y n, Instr.addVxNn 14 255 ∉ flagSetting x y n) ∧ VF ∉ regsWritten (.addVxNn 14 255) :=
  ⟨by decide, by decide, by simp [flagSetting], by decide⟩
/-- O16, O25 (first clause), O26: the last sprite in range, and the empty one with `I` out of range. -/
theorem witness_sprite_in_range :
    (let s : State := { State.reset with i := 0xFF1 }; s.i.toNat + (15 : Nibble).toNat ≤ 0x1000) ∧
    ((0 : Nibble) = 0 ∧ ({ State.reset with i := 0xFFFF } : State).i.toNat > 0xFFF) := by decide
/-- O17: a state that meets the invariant, at the highest `PC`, and steps. -/
theorem witness_invariant : ∃ s t, Invariant s ∧ s.pc = 0x10FE ∧ step s = .next t :=
  ⟨{ State.reset with pc := 0x10FE }, _, ⟨Memory.wf_empty _, by decide, by decide, by simp [State.reset]⟩, rfl, rfl⟩
/-- O20, O37: a condition that holds and one that does not. -/
theorem witness_conditions :
    State.reset.reg 0 = 0 ∧ State.reset.reg 15 ≠ 0xFF ∧ (State.reset.setReg 1 1).reg 1 ≠ (State.reset.setReg 1 1).reg 0 ∧
    State.reset.reg 1 = State.reset.reg 0 := by decide
/-- O21, O23: the last free slot, and a full stack. -/
theorem witness_call_bounds :
    ({ State.reset with sp := 15 } : State).sp.val < 16 ∧ ({ State.reset with sp := 16 } : State).sp.val = 16 := by decide
/-- O22: a full stack, one entry, and an empty stack. -/
theorem witness_ret_bounds :
    ({ State.reset with sp := 16 } : State).sp.val = (15 : Fin 16).val + 1 ∧
    ({ State.reset with sp := 1 } : State).sp.val = (0 : Fin 16).val + 1 ∧ State.reset.sp.val = 0 := by decide
/-- O25, O26: a sprite of one row at the top of memory, whose one set bit is its rightmost: it touches (6, 31) and no other
pixel, across both edges; the pixel is dark, or lit. -/
theorem witness_sprite_touches :
    let s := ((withBytes State.reset 0xFFF [0x01]).setI 0xFFF).setReg 0 63 |>.setReg 1 255
    s.i.toNat + (1 : Nibble).toNat ≤ 0x1000 ∧ spriteTouches s 0 1 1 6 31 ∧ ¬ spriteTouches s 0 1 1 63 31 ∧
    pixelAt s.fb 6 31 = false ∧ pixelAt (s.setFb (flipPixel s.fb 6 31)).fb 6 31 = true ∧
    spriteTouches (s.setFb (flipPixel s.fb 6 31)) 0 1 1 6 31 := by
  unfold spriteTouches
  decide
/-- O25: with no touched pixel lit, the fourth clause. -/
theorem witness_sprite_no_collision :
    ¬ ∃ px py, spriteTouches State.reset 0 1 0 px py ∧ pixelAt State.reset.fb px py = true := by
  rintro ⟨_, _, ⟨_, h, _⟩, _⟩
  exact absurd h (by simp)
/-- O25 (last clause): the first sprite out of range, with `I` in range and with `I` above it. -/
theorem witness_sprite_out_of_range :
    ((15 : Nibble) ≠ 0 ∧ ({ State.reset with i := 0xFF2 } : State).i.toNat + (15 : Nibble).toNat > 0x1000) ∧
    ((1 : Nibble) ≠ 0 ∧ ({ State.reset with i := 0x1000 } : State).i.toNat + (1 : Nibble).toNat > 0x1000) := by decide
/-- O26: a dark framebuffer, and a first draw of a sprite with a set bit that leaves VX and VY alone. -/
theorem witness_drawn_twice :
    (∀ px py, pixelAt State.reset.fb px py = false) ∧
    (let s := (withBytes State.reset 0xFFF [0x01]).setI 0xFFF;
      s.i.toNat + (1 : Nibble).toNat ≤ 0x1000 ∧ (s.mem.byteAt (s.i.toNat + 0)).getLsbD 0 = true ∧
        ∃ t, exec (.drwVxVyN 0 14 1) s = .next t ∧ t.reg 0 = s.reg 0 ∧ t.reg 14 = s.reg 14) :=
  ⟨pixelAt_dark, by decide, by decide, _, rfl, by decide, by decide⟩
/-- O26, where every pixel the sprite touches is lit before the first draw: that draw makes the framebuffer dark, so the second is
a draw onto a dark framebuffer, which R124 itself gives `VF = 0`, although the sprite has a set bit (log entry 15). -/
theorem witness_second_draw_is_onto_dark :
    let s := withBytes ((State.reset.setFb (flipPixel darkFramebuffer 0 0)).setI 0x300) 0x300 [0x80]
    ∃ t u, exec (.drwVxVyN 0 0 1) s = .next t ∧ t.fb = darkFramebuffer ∧ t.reg 0 = s.reg 0 ∧ t.reg VF = 1 ∧
      exec (.drwVxVyN 0 0 1) t = .next u ∧ u.fb = s.fb ∧ u.reg VF = 0 :=
  ⟨_, _, rfl, flipPixel_flipPixel darkFramebuffer 0 0, by decide, by decide, rfl,
    flipPixel_flipPixel (flipPixel darkFramebuffer 0 0) 0 0, by decide⟩
/-- O26, on an all-lit framebuffer: the pixel touched is dark at the second draw, so no pixel goes from lit to dark in it and R121,
R123 give `VF = 0` (log entry 15). -/
theorem witness_second_draw_on_all_lit :
    let lit : Framebuffer := Vector.replicate 32 (Vector.replicate 64 true)
    let s := withBytes ((State.reset.setFb lit).setI 0x300) 0x300 [0x80]
    ∃ t u, exec (.drwVxVyN 0 0 1) s = .next t ∧ t.reg 0 = s.reg 0 ∧ pixelAt t.fb 0 0 = false ∧ t.reg VF = 1 ∧
      exec (.drwVxVyN 0 0 1) t = .next u ∧ u.fb = s.fb ∧ u.reg VF = 0 :=
  ⟨_, _, rfl, by decide, by decide +kernel, by decide +kernel, rfl, flipPixel_flipPixel _ 0 0, by decide +kernel⟩
/-- O47: the last column of the last row of the tallest sprite, in range at the top of memory. -/
theorem witness_sprite_bits :
    14 < (15 : Nibble).toNat ∧ 7 < 8 ∧ ({ State.reset with i := 0xFF1 } : State).i.toNat + (15 : Nibble).toNat ≤ 0x1000 := by
  decide
/-- O28, O29: a register that is not VF. -/
theorem witness_not_VF : (14 : Reg) ≠ VF ∧ (0 : Reg) ≠ VF := by decide
/-- O32: the last three bytes, and the first that are not. -/
theorem witness_digits_bounds :
    ({ State.reset with i := 0xFFD } : State).i.toNat + 2 ≤ 0xFFF ∧ ({ State.reset with i := 0xFFE } : State).i.toNat + 2 > 0xFFF :=
  by decide
/-- O33, O34: the last 16 bytes, with a register moved and one not; the first run out of range, and `I` itself out of range. -/
theorem witness_block_bounds :
    ({ State.reset with i := 0xFF0 } : State).i.toNat + (15 : Reg).val ≤ 0xFFF ∧
    ({ State.reset with i := 0xFF1 } : State).i.toNat + (14 : Reg).val ≤ 0xFFF ∧ (14 : Reg).val ≤ (14 : Reg).val ∧
    (14 : Reg).val < (15 : Reg).val ∧
    ({ State.reset with i := 0xFF1 } : State).i.toNat + (15 : Reg).val > 0xFFF ∧
    ({ State.reset with i := 0x1000 } : State).i.toNat + (0 : Reg).val > 0xFFF := by decide
/-- O35: the last word of memory, both of whose bytes are stored, and a word of whose bytes one is, for the last digits, the last
16 registers and the largest image. -/
theorem witness_fetched_stores :
    (let s : State := { State.reset with i := 0xFFD };
      s.i.toNat + 2 ≤ 0xFFF ∧ s.i.toNat ≤ 0xFFE ∧ 0xFFE + 1 ≤ s.i.toNat + 2 ∧ 0xFFC + 1 = s.i.toNat) ∧
    (let s : State := { State.reset with i := 0xFF0 };
      s.i.toNat + (15 : Reg).val ≤ 0xFFF ∧ 0xFFE + 1 ≤ s.i.toNat + (15 : Reg).val ∧ 0xFEF + 1 = s.i.toNat) ∧
    (State.reset.fault = none ∧ (List.replicate 3584 (1 : Byte)).length ≤ 3584 ∧ 0xFFE + 1 < 0x200 + 3584 ∧ 0x1FF + 1 = 0x200) := by
  refine ⟨by decide, by decide, rfl, ?_, by decide, by decide⟩
  rw [List.length_replicate]
/-- O36: a byte written and written back is the same memory. -/
theorem witness_memories_alike :
    let m := State.reset.mem
    let l := (m.write 0xFFF 1).write 0xFFF 0
    m.wf ∧ l.wf ∧ m.font = l.font ∧ ∀ a < 4096, m.byteAt a = l.byteAt a := by
  refine ⟨Memory.wf_empty _, Memory.wf_write (Memory.wf_write (Memory.wf_empty _) (by decide) _) (by decide) _, rfl, fun a _ => ?_⟩
  rw [Memory.byteAt_write, Memory.byteAt_write]
  split
  · next h => subst h; decide
  · rfl
/-- O37: the last key, pressed and released; the first number that is no key. -/
theorem witness_key_bounds :
    (let s := State.reset.setReg 1 15;
      (s.reg 1).toNat = (15 : Reg).val ∧ s.key.get 15 = false ∧
        ({ s with key := s.key.set 15 true } : State).key.get 15 = true) ∧
    ((State.reset.setReg 1 16).reg 1).toNat > 15 := by decide
/-- O38, O39: no key pressed, and the last key pressed; FX0A at the last word of memory. -/
theorem witness_key_wait :
    (∀ k : Reg, State.reset.key.get k = false) ∧
    ({ State.reset with key := State.reset.key.set 15 true } : State).key.get 15 = true ∧
    (let s := atTop 0xFF 0x0A;
      s.fault = none ∧ s.pc.toNat ≤ 0xFFE ∧ decodeWord (s.mem.wordAt s.pc.toNat) = some (.ldVxK 15) ∧
        ∀ k : Reg, s.key.get k = false) := by decide
/-- O40, O41, O42: a block that is not faulted, with `ST` at 1. -/
theorem witness_running_timers : (State.reset.setSt 1).fault = none ∧ (State.reset.setSt 1).st.toNat = 0 + 1 := by decide
/-- O44: the largest image that fits, its last byte, the address after it and the one before it; the smallest that does not. -/
theorem witness_image_bounds :
    State.reset.fault = none ∧ (List.replicate 3584 (1 : Byte)).length ≤ 3584 ∧
    (List.replicate 3584 (1 : Byte))[3583]? = some 1 ∧ 0x200 + (List.replicate 3584 (1 : Byte)).length ≤ 0x1000 ∧ 0x1FF < 0x200 ∧
    (List.replicate 3585 (1 : Byte)).length > 3584 := by
  refine ⟨rfl, ?_, ?_, ?_, by decide, ?_⟩
  · rw [List.length_replicate]
  · rw [List.getElem?_replicate]; rfl
  · rw [List.length_replicate]
  · rw [List.length_replicate]; decide
/-- O45: the last key of a block that is not faulted, and the first number that is none. -/
theorem witness_setKey_bounds : State.reset.fault = none ∧ (15 : Reg).val < 16 ∧ 15 < 16 := by decide

end Sys2Proof.Tests
end

/-! PROOF. The frame of every instruction (00_scope.md R12): what `exec` answers where the table of faults names a fault, and
that it stays within the instruction's rule where the table names none. -/

namespace Sys2Proof.Machine

/-! ### An instruction that faults -/

/-- `exec` raises exactly the fault, and records exactly the value, that the table of faults names (60_exceptions.md R181). -/
theorem exec_of_faultRaised {i : Instr} {s : State} {c : Cause} {info : Option Nat} (h : faultRaised i s = some (c, info)) :
    exec i s = raiseFault c info i s := by
  cases i with
  | ret =>
    obtain ⟨hsp, rfl, rfl⟩ := by simpa [faultRaised] using h
    exact exec_ret_of_empty s (by simp [hsp])
  | call nnn =>
    obtain ⟨hsp, rfl, rfl⟩ := by simpa [faultRaised] using h
    exact exec_call_of_full s nnn hsp
  | drwVxVyN x y n =>
    obtain ⟨⟨hn, hi⟩, rfl, rfl⟩ := by simpa [faultRaised] using h
    exact exec_drw_of_gt s x y n (fun e => hn (by simp [e])) (by omega)
  | skpVx x =>
    obtain ⟨hx, rfl, rfl⟩ := by simpa [faultRaised] using h
    exact exec_skp_of_gt s x hx
  | sknpVx x =>
    obtain ⟨hx, rfl, rfl⟩ := by simpa [faultRaised] using h
    exact exec_sknp_of_gt s x hx
  | ldBVx x =>
    obtain ⟨hi, rfl, rfl⟩ := by simpa [faultRaised] using h
    exact exec_ldB_of_gt s x hi
  | ldMemVx x =>
    obtain ⟨hi, rfl, rfl⟩ := by simpa [faultRaised] using h
    exact exec_ldMem_of_gt s x hi
  | ldVxMem x =>
    obtain ⟨hi, rfl, rfl⟩ := by simpa [faultRaised] using h
    exact exec_ldVxMem_of_gt s x hi
  | _ => cases h

/-! ### An instruction that completes -/

/-- The state `t` differs from `s` only where the rule of `i` writes: in the parts it names, and of memory and the stack only in
the bytes it stores from `I` up and the slots it pushes. -/
structure WithinRule (i : Instr) (s t : State) : Prop where
  frame : Frame (partsWritten i) s t
  bytes : ∀ a, a < s.i.toNat ∨ s.i.toNat + bytesStored i ≤ a → t.mem.byteAt a = s.mem.byteAt a
  slots : ∀ k : Fin 16, k.val ∉ slotsWritten i s → t.stack.get k = s.stack.get k

/-- A frame that names neither memory nor the stack speaks for every byte and every slot. -/
theorem WithinRule.of_frame {i : Instr} {s t : State} (h : Frame (partsWritten i) s t)
    (hmem : Part.mem ∉ partsWritten i := by simp [partsWritten, otherWritten])
    (hstack : Part.stack ∉ partsWritten i := by simp [partsWritten, otherWritten]) : WithinRule i s t where
  frame := h
  bytes a _ := h.block.mem hmem a
  slots _ _ := by rw [(h.block.stack hstack).1]

/-- Bytes written to memory from `I` up, as many as the rule stores. -/
theorem WithinRule.of_setMem {i : Instr} {s : State} (bs : List Byte) (hlen : bs.length = bytesStored i)
    (hparts : partsWritten i = [.mem]) : WithinRule i s (s.setMem (s.mem.writeImage s.i.toNat bs)) where
  frame := hparts ▸ frame_setMem s _ (Memory.writeImage_font ..)
  bytes a ha := by
    rw [State.setMem_mem, Memory.byteAt_writeImage, dif_neg (by omega)]
  slots _ _ := rfl

/-- What CALL and RET do to the state: slots and `SP` together are the part `stack`, and `PC` moves. -/
theorem frame_setStack_setPc (s : State) (v : Vector Word 16) (p : Fin 17) (a : Word) :
    Frame [.pc, .stack] s (State.setPc { s with stack := v, sp := p } a) := by
  refine ⟨⟨?_, ?_, ?_, ?_, ?_, ?_, ?_, ?_, ?_, ?_, ?_⟩, ?_, ?_, ?_, ?_, ?_⟩ <;> simp [State.reg]

theorem withinRule_call (s : State) (nnn : Addr) (p : Fin 17) (h : s.sp.val < 16) :
    WithinRule (.call nnn) s (State.setPc { s with stack := s.stack.set s.sp.val s.pc, sp := p } (zextAddr nnn)) where
  frame := frame_setStack_setPc s _ _ _
  bytes _ _ := rfl
  slots k hk := by
    have hne : s.sp.val ≠ k.val := fun e => hk (by simp [slotsWritten, e])
    simp [Vector.get_eq_getElem, hne]

theorem withinRule_ret (s : State) (p : Fin 17) (a : Word) : WithinRule .ret s (State.setPc { s with sp := p } a) where
  frame := frame_setStack_setPc s s.stack p a
  bytes _ _ := rfl
  slots _ _ := rfl

theorem withinRule_drw (s : State) (x y : Reg) (n : Nibble) (fb : Framebuffer) (b : Byte) :
    WithinRule (.drwVxVyN x y n) s ((s.setFb fb).setReg VF b) :=
  .of_frame <| ((frame_setFb s fb).mono (by simp [partsWritten, otherWritten])).trans
    ((frame_setReg _ VF b).mono (by simp [partsWritten, regsWritten]))

/-- `V0..VX` are all that a load of `X + 1` bytes writes. -/
theorem withinRule_ldVxMem (s : State) (x : Reg) (bs : List Byte) (h : bs.length = x.val + 1) :
    WithinRule (.ldVxMem x) s (s.setRegsFrom 0 bs) :=
  .of_frame <| frame_setRegsFrom s 0 bs _ fun r _ hr => by
    have : r ≤ x := Fin.le_def.mpr (by omega)
    simpa [partsWritten, regsWritten, otherWritten, regRange] using this

/-- A pressed key goes to VX, or `PC` goes back to the instruction (44_input_timers.md R168). -/
theorem exec_ldVxK_withinRule (s : State) (x : Reg) : ∃ t, exec (.ldVxK x) s = .next t ∧ WithinRule (.ldVxK x) s t := by
  cases hk : keySelect (pressedKeys s) s.pick with
  | none =>
    have hup : ∀ k, s.keyDown k = false := by
      simpa [List.eq_nil_iff_forall_not_mem] using keySelect_eq_none.mp hk
    exact ⟨_, exec_ldVxK_of_none s x hup, .of_frame <| (frame_setPc s _).mono (by simp [partsWritten, otherWritten])⟩
  | some k =>
    exact ⟨_, exec_ldVxK_of_some s x k hk, .of_frame <| (frame_setReg s x _).mono (by simp [partsWritten, regsWritten])⟩

/-- Where the table of faults names none, `exec` answers a next state within the instruction's rule. -/
theorem exec_withinRule {i : Instr} {s : State} (h : faultRaised i s = none) :
    ∃ t, exec i s = .next t ∧ WithinRule i s t := by
  cases i with
  | nop => exact ⟨_, rfl, .of_frame (.refl _ s)⟩
  | cls => exact ⟨_, rfl, .of_frame (frame_setFb s _)⟩
  | ret =>
    have hsp : 0 < s.sp.val := by simpa [faultRaised, Nat.pos_iff_ne_zero] using h
    exact ⟨_, exec_ret_of_pos s hsp, withinRule_ret s _ _⟩
  | call nnn =>
    have hsp : s.sp.val ≠ 16 := by simpa [faultRaised] using h
    exact ⟨_, exec_call_of_lt s nnn (by omega), withinRule_call s nnn _ (by omega)⟩
  | jp | jpV0Nnn => exact ⟨_, rfl, .of_frame (frame_setPc s _)⟩
  | seVxNn | sneVxNn | seVxVy | sneVxVy => exact ⟨_, rfl, .of_frame (frame_skipIf s _)⟩
  | ldVxNn | addVxNn | ldVxVy | orVxVy | andVxVy | xorVxVy | rndVxNn | ldVxDt =>
    exact ⟨_, rfl, .of_frame (frame_setReg s _ _)⟩
  | addVxVy | subVxVy | shrVxVy | subnVxVy | shlVxVy => exact ⟨_, rfl, .of_frame (frame_setRegAndFlag s _ _ _)⟩
  | ldINnn | addIVx | ldFVx => exact ⟨_, rfl, .of_frame (frame_setI s _)⟩
  | drwVxVyN x y n =>
    have hn : n = 0 ∨ s.i.toNat + n.toNat ≤ 0x1000 := by
      refine or_iff_not_imp_left.mpr fun hn => ?_
      have hpos : n.toNat ≠ 0 := fun e => hn (BitVec.eq_of_toNat_eq e)
      have hi : s.i.toNat + (n.toNat - 1) ≤ 0xFFF := by simpa [faultRaised, hpos] using h
      omega
    exact ⟨_, exec_drw_of_le s x y n hn, withinRule_drw s x y n _ _⟩
  | skpVx x =>
    have hx : (s.reg x).toNat < 16 := by simpa [faultRaised, Nat.lt_succ_iff] using h
    exact ⟨_, exec_skp_of_lt s x ⟨_, hx⟩ rfl, .of_frame (frame_skipIf s _)⟩
  | sknpVx x =>
    have hx : (s.reg x).toNat < 16 := by simpa [faultRaised, Nat.lt_succ_iff] using h
    exact ⟨_, exec_sknp_of_lt s x ⟨_, hx⟩ rfl, .of_frame (frame_skipIf s _)⟩
  | ldVxK x => exact exec_ldVxK_withinRule s x
  | ldDtVx => exact ⟨_, rfl, .of_frame (frame_setDt s _)⟩
  | ldStVx => exact ⟨_, rfl, .of_frame (frame_setSt s _)⟩
  | ldBVx x =>
    have hi : s.i.toNat + 2 ≤ 0xFFF := by simpa [faultRaised] using h
    exact ⟨_, exec_ldB_of_le s x hi, .of_setMem _ rfl rfl⟩
  | ldMemVx x =>
    have hi : s.i.toNat + x.val ≤ 0xFFF := by simpa [faultRaised] using h
    exact ⟨_, exec_ldMem_of_le s x hi, .of_setMem _ (regsUpTo_length s x) rfl⟩
  | ldVxMem x =>
    have hi : s.i.toNat + x.val ≤ 0xFFF := by simpa [faultRaised] using h
    exact ⟨_, exec_ldVxMem_of_le s x hi, withinRule_ldVxMem s x _ (by simp [bytesAtI])⟩

/-- Settles O14: a fault restores the state before the fetch, and an instruction that completes stays within its rule. -/
theorem instructionsWriteOnlyWhatTheirRulesName : Obligations.InstructionsWriteOnlyWhatTheirRulesName := by
  unfold Obligations.InstructionsWriteOnlyWhatTheirRulesName
  intro i s
  cases h : faultRaised i s with
  | none =>
    obtain ⟨t, ht, hframe, hbytes, hslots⟩ := exec_withinRule h
    exact ⟨t, ht, fun _ => ⟨hframe, hbytes, hslots⟩, fun hne => absurd rfl hne⟩
  | some f =>
    obtain ⟨t, ht, -, hpc, -, hframe⟩ := takesFault_of_raise (exec_of_faultRaised h)
    exact ⟨t, ht, nofun, fun _ => ⟨hframe, hpc⟩⟩

end Sys2Proof.Machine

/-! PROOF. The word of a decoded instruction: a row's word is put together again from the fields the decoder reads (30_encoding.md
R83, R85). -/

namespace Sys2Proof

section Fields
variable {w : Word} {op : Nibble}

theorem layoutNNN_of_fieldB1 (h : (fieldB1 w).toNat = op.toNat) : layoutNNN op (fieldNNN w) = w := by
  rw [← BitVec.eq_of_toNat_eq h]; exact word_eq_layoutNNN w

theorem layoutXNN_of_fieldB1 (h : (fieldB1 w).toNat = op.toNat) : layoutXNN op (fieldX w) (fieldNN w) = w := by
  rw [← BitVec.eq_of_toNat_eq h]; exact word_eq_layoutXNN w

theorem layoutXYN_of_fieldB1 (h : (fieldB1 w).toNat = op.toNat) : layoutXYN op (fieldX w) (fieldY w) (fieldN w) = w := by
  rw [← BitVec.eq_of_toNat_eq h]; exact word_eq_layoutXYN w

theorem layoutXYN_of_fieldN {n : Nibble} (h : (fieldB1 w).toNat = op.toNat) (hn : (fieldN w).toNat = n.toNat) :
    layoutXYN op (fieldX w) (fieldY w) n = w := by
  rw [← BitVec.eq_of_toNat_eq hn]; exact layoutXYN_of_fieldB1 h

theorem layoutXSS_of_fieldNN {sub : Byte} (h : (fieldB1 w).toNat = op.toNat) (hs : (fieldNN w).toNat = sub.toNat) :
    layoutXSS op (fieldX w) sub = w := by
  rw [← BitVec.eq_of_toNat_eq hs]; exact layoutXNN_of_fieldB1 h

end Fields

section Majors
variable {w : Word} {i : Instr}

theorem encode_of_decodeMajor0 (h : decodeMajor0 w = some i) : encode i = w := by
  unfold decodeMajor0 at h
  split at h
  · next hw => cases h; exact hw.symm
  · split at h
    · next hw => cases h; exact hw.symm
    · split at h
      · next hw => cases h; exact hw.symm
      · cases h

theorem encode_of_decodeMajor8 (hm : (fieldB1 w).toNat = 8) (h : decodeMajor8 w = some i) : encode i = w := by
  unfold decodeMajor8 at h
  split at h <;> cases h <;> exact layoutXYN_of_fieldN hm ‹_›

theorem encode_of_decodeMajorE (hm : (fieldB1 w).toNat = 14) (h : decodeMajorE w = some i) : encode i = w := by
  unfold decodeMajorE at h
  split at h <;> cases h <;> exact layoutXSS_of_fieldNN hm ‹_›

theorem encode_of_decodeMajorF (hm : (fieldB1 w).toNat = 15) (h : decodeMajorF w = some i) : encode i = w := by
  unfold decodeMajorF at h
  split at h <;> cases h <;> exact layoutXSS_of_fieldNN hm ‹_›

theorem decodeSub0_eq_some {j : Instr} (h : decodeSub0 w j = some i) : (fieldN w).toNat = 0 ∧ j = i := by
  unfold decodeSub0 at h
  split at h
  · next hn => exact ⟨hn, Option.some.inj h⟩
  · cases h

/-- Each supported word is the encoding of the instruction it stands for (30_encoding.md R85). -/
theorem encode_of_decodeWord (h : decodeWord w = some i) : encode i = w := by
  unfold decodeWord at h
  split at h
  case h_1 => exact encode_of_decodeMajor0 h
  case h_6 hm | h_10 hm =>
    obtain ⟨hn, rfl⟩ := decodeSub0_eq_some h
    exact layoutXYN_of_fieldN hm hn
  case h_9 hm => exact encode_of_decodeMajor8 hm h
  case h_14 hm => cases h; exact layoutXYN_of_fieldB1 hm
  case h_15 hm => exact encode_of_decodeMajorE hm h
  case h_16 hm => exact encode_of_decodeMajorF hm h
  case h_17 => cases h
  case h_2 hm | h_3 hm | h_11 hm | h_12 hm => cases h; exact layoutNNN_of_fieldB1 hm
  case h_4 hm | h_5 hm | h_7 hm | h_8 hm | h_13 hm => cases h; exact layoutXNN_of_fieldB1 hm

end Majors

end Sys2Proof

/-! PROOF. What a TICK answers (10_state.md R45, 60_exceptions.md R182, R184): the fault the table names, or the instruction's own
effect; and that every step the host may ask for answers a next state. -/

namespace Sys2Proof.Machine

/-! ### The table of faults -/

/-- The fault an instruction raises depends on `I`, `SP` and the registers it reads, and on nothing else of the state. -/
theorem faultRaised_congr {i : Instr} {s t : State} (hi : t.i = s.i) (hsp : t.sp = s.sp)
    (hreg : ∀ x ∈ regsRead i, t.reg x = s.reg x) : faultRaised i t = faultRaised i s := by
  cases i with
  | skpVx x | sknpVx x => simp only [faultRaised, hreg x (by simp [regsRead])]
  | _ => simp only [faultRaised, hi, hsp]

section NoFault
variable {s : State} {x y : Reg}

theorem faultRaised_ret_eq_none : faultRaised .ret s = none ↔ 0 < s.sp.val := by
  simp [faultRaised, Nat.pos_iff_ne_zero]

theorem faultRaised_call_eq_none {nnn : Addr} : faultRaised (.call nnn) s = none ↔ s.sp.val < 16 := by
  simp only [faultRaised, ite_eq_right_iff, reduceCtorEq, imp_false]
  omega

theorem faultRaised_drw_eq_none {n : Nibble} :
    faultRaised (.drwVxVyN x y n) s = none ↔ n = 0 ∨ s.i.toNat + n.toNat ≤ 0x1000 := by
  have hn : n = 0 ↔ n.toNat = 0 := ⟨fun h => by rw [h]; rfl, fun h => BitVec.eq_of_toNat_eq h⟩
  simp only [faultRaised, ite_eq_right_iff, reduceCtorEq, imp_false, hn]
  omega

theorem faultRaised_skp_eq_none : faultRaised (.skpVx x) s = none ↔ (s.reg x).toNat < 16 := by
  simp [faultRaised, Nat.lt_succ_iff]

theorem faultRaised_sknp_eq_none : faultRaised (.sknpVx x) s = none ↔ (s.reg x).toNat < 16 := by
  simp [faultRaised, Nat.lt_succ_iff]

theorem faultRaised_ldB_eq_none : faultRaised (.ldBVx x) s = none ↔ s.i.toNat + 2 ≤ 0xFFF := by simp [faultRaised]

theorem faultRaised_ldMem_eq_none : faultRaised (.ldMemVx x) s = none ↔ s.i.toNat + x.val ≤ 0xFFF := by simp [faultRaised]

theorem faultRaised_ldVxMem_eq_none : faultRaised (.ldVxMem x) s = none ↔ s.i.toNat + x.val ≤ 0xFFF := by
  simp [faultRaised]

end NoFault

/-! ### `exec` -/

/-- No instruction refuses or stops the machine (log entry 2). -/
theorem exec_answers_next (i : Instr) (s : State) : ∃ t, exec i s = .next t := by
  cases h : faultRaised i s with
  | none => obtain ⟨t, ht, -⟩ := exec_withinRule h; exact ⟨t, ht⟩
  | some f => exact ⟨_, exec_of_faultRaised h⟩

/-- The state `exec` answers where the table of faults names none is within the instruction's rule. -/
theorem withinRule_of_exec {i : Instr} {s t : State} (h : faultRaised i s = none) (ht : exec i s = .next t) :
    WithinRule i s t := by
  obtain ⟨u, hu, hrule⟩ := exec_withinRule h
  cases ht.symm.trans hu
  exact hrule

/-- With no key to take, `PC` goes back to the instruction (44_input_timers.md R168). -/
theorem exec_ldVxK_of_noKey (s : State) (x : Reg) (h : keySelect (pressedKeys s) s.pick = none) :
    exec (.ldVxK x) s = .next (s.setPc (s.pc - 2)) := by
  simp only [exec, execLdVxK, h]

@[simp] theorem v_mem_partsWritten {i : Instr} {r : Reg} : Part.v r ∈ partsWritten i ↔ r ∈ regsWritten i := by
  cases i <;> simp [partsWritten, otherWritten]

@[simp] theorem fault_notMem_partsWritten (i : Instr) : Part.fault ∉ partsWritten i := by
  cases i <;> simp [partsWritten, otherWritten]

/-- An instruction leaves every register outside its row of 10_state.md R24, whether it faults or not. -/
theorem exec_reg_of_notWritten {i : Instr} {s t : State} (ht : exec i s = .next t) {r : Reg} (hr : r ∉ regsWritten i) :
    t.reg r = s.reg r := by
  cases h : faultRaised i s with
  | none => exact (withinRule_of_exec h ht).frame.block.regs r (by simpa using hr)
  | some f =>
    rw [exec_of_faultRaised h] at ht
    cases ht
    rfl

/-! ### `TICK` -/

/-- The fetch's advance undone: the tick's inputs stay recorded, and the answer is still "ok". -/
theorem fetched_beforeFetch (rnd : Byte) (pick : Nat) (s : State) :
    (fetched rnd pick s).beforeFetch = (s.beginTick rnd pick).setAnswer .ok :=
  beforeFetch_setPc ((s.beginTick rnd pick).setAnswer .ok)

theorem faultRaised_fetched (i : Instr) (rnd : Byte) (pick : Nat) (s : State) :
    faultRaised i (fetched rnd pick s) = faultRaised i s :=
  faultRaised_congr rfl rfl fun _ _ => rfl

section Tick
variable {s : State} {i : Instr} (hf : s.fault = none) (hp : s.pc.toNat ≤ 0xFFE)
  (hw : decodeWord (s.mem.wordAt s.pc.toNat) = some i)
include hf hp hw

/-- A TICK whose instruction faults takes the fault in the state before the fetch (60_exceptions.md R182). -/
theorem tick_of_fault {c : Cause} {info : Option Nat} (h : faultRaised i s = some (c, info)) (rnd : Byte) (pick : Nat) :
    tick rnd pick s =
      .next (enterFault c (some (s.mem.wordAt s.pc.toNat)) info ((s.beginTick rnd pick).setAnswer .ok)) := by
  rw [tick_of_instr hf hp hw, exec_of_faultRaised ((faultRaised_fetched i rnd pick s).trans h), raiseFault,
    fetched_beforeFetch, encode_of_decodeWord hw]

/-- A TICK whose instruction does not fault stays within the instruction's rule. -/
theorem tick_withinRule (h : faultRaised i s = none) (rnd : Byte) (pick : Nat) :
    ∃ t, tick rnd pick s = .next t ∧ WithinRule i (fetched rnd pick s) t := by
  rw [tick_of_instr hf hp hw]
  exact exec_withinRule ((faultRaised_fetched i rnd pick s).trans h)

end Tick

theorem tick_answers_next (rnd : Byte) (pick : Nat) (s : State) : ∃ t, tick rnd pick s = .next t := by
  cases hf : s.fault with
  | some f => exact ⟨_, tick_of_faulted hf rnd pick⟩
  | none =>
    by_cases hp : s.pc.toNat > 0xFFE
    · exact ⟨_, tick_of_fetchFault hf hp rnd pick⟩
    · have hp : s.pc.toNat ≤ 0xFFE := Nat.not_lt.mp hp
      cases hw : decodeWord (s.mem.wordAt s.pc.toNat) with
      | none => exact ⟨_, tick_of_unsupported hf hp hw rnd pick⟩
      | some i => rw [tick_of_instr hf hp hw]; exact exec_answers_next i _

/-- The only operation without a next state is a SET_KEY above 15 (10_state.md R44). -/
theorem perform_answers_next (op : HostOp) (s : State) :
    (∃ t, perform op s = .next t) ∨
      ∃ k p, op = .setKey k p ∧ 15 < k ∧ perform op s = .refused (.setKeyOutsideContract k) := by
  cases op with
  | reset | load | tickTimers | readFb => exact .inl ⟨_, rfl⟩
  | tick rnd pick => exact .inl (tick_answers_next rnd pick s)
  | setKey k p =>
    by_cases hk : k < 16
    · by_cases hf : s.fault = none
      · exact .inl ⟨_, setKey_of_running hf ⟨k, hk⟩ p⟩
      · exact .inl ⟨_, setKey_of_faulted hf hk p⟩
    · exact .inr ⟨k, p, rfl, by omega, setKey_of_gt s (by omega) p⟩

/-- Settles O13: by cases of the step's operation. -/
theorem everyAdmittedStepAnswersANextState : Obligations.EveryAdmittedStepAnswersANextState := by
  unfold Obligations.EveryAdmittedStepAnswersANextState
  intro s
  obtain ⟨op, rest, hpend, hstep⟩ | ⟨-, hstep⟩ := step_cases s
  · rw [hstep]
    refine (perform_answers_next op { s with pending := rest }).imp_right ?_
    rintro ⟨k, p, rfl, hk, h⟩
    exact ⟨k, p, rest, hpend, hk, h⟩
  · exact .inl (hstep ▸ tick_answers_next _ _ s)

/-- Settles O8: one equation of the tick for each clause of R184's order. -/
theorem tickOutcomeFollowsThePriorityOrder : Obligations.TickOutcomeFollowsThePriorityOrder := by
  unfold Obligations.TickOutcomeFollowsThePriorityOrder
  refine ⟨fun s rnd pick hf => ?_, rfl⟩
  obtain ⟨t, ht⟩ := tick_answers_next rnd pick s
  refine ⟨t, ht, fun hp => ?_, fun hp hw => ?_, fun i c info hp hw h => ?_, fun i hp hw h => ?_⟩
  · cases ht.symm.trans (tick_of_fetchFault hf hp rnd pick)
    exact ⟨rfl, rfl⟩
  · cases ht.symm.trans (tick_of_unsupported hf hp hw rnd pick)
    exact ⟨rfl, hf⟩
  · cases ht.symm.trans (tick_of_fault hf hp hw h rnd pick)
    exact ⟨rfl, rfl⟩
  · obtain ⟨u, hu, hrule⟩ := tick_withinRule hf hp hw h rnd pick
    cases ht.symm.trans hu
    exact ⟨hrule.frame.answer (by simp), (hrule.frame.block.fault (by simp)).trans hf⟩

/-- Settles O7: the two bytes of the word decode to `i`, so the tick executes it on the fetched state. -/
theorem stepRunsTheDecodedInstruction : Obligations.StepRunsTheDecodedInstruction := by
  unfold Obligations.StepRunsTheDecodedInstruction
  intro s i hf hp hdec
  have hw : decodeWord (s.mem.wordAt s.pc.toNat) = some i := by
    simp only [decodeBytes] at hdec
    split at hdec
    · next hj => cases hdec; exact hj
    · cases hdec
  constructor
  · intro rnd pick rest hpend
    simp only [step, nextOperation, hpend, perform]
    exact tick_of_instr (s := { s with pending := rest }) hf hp hw rnd pick
  · intro hpend
    simp only [step, nextOperation, hpend]
    rw [tick_of_instr hf hp hw]
    simp only [fetched, State.beginTick, State.setPc, State.setAnswer, hpend]

end Sys2Proof.Machine

/-! PROOF. Every step keeps the invariant (10_state.md R26, R33; 60_exceptions.md R182). -/

namespace Sys2Proof.Machine

/-! ### What the invariant does not depend on -/

/-- A fault record goes on fitting where only the timers, the keys, the framebuffer and `FAULT` itself change. -/
theorem FaultRecord.Fits.of_blockFrame {f : FaultRecord} {s t : State} (h : f.Fits s)
    (hb : BlockFrame [.dt, .st, .key, .fb, .fault] s t) : f.Fits t := by
  have hpc : t.pc = s.pc := hb.pc (by simp)
  have hword : t.mem.wordAt s.pc.toNat = s.mem.wordAt s.pc.toNat := by
    simp only [Memory.wordAt, hb.mem (by simp)]
  have hraised (i : Instr) : faultRaised i t = faultRaised i s :=
    faultRaised_congr (hb.i (by simp)) (hb.stack (by simp)).2 fun x _ => hb.regs x (by simp)
  unfold FaultRecord.Fits at h ⊢
  simpa only [hpc, hword, hraised] using h

/-- The invariant is kept where only the timers, the keys and the framebuffer change. -/
theorem Invariant.of_blockFrame {s t : State} (h : Invariant s) (hb : BlockFrame [.dt, .st, .key, .fb] s t)
    (hmem : t.mem = s.mem) : Invariant t where
  memory := hmem ▸ h.memory
  pc := hb.pc (by simp) ▸ h.pc
  stack := (hb.stack (by simp)).1 ▸ h.stack
  fault f hf := (h.fault f ((hb.fault (by simp)).symm.trans hf)).of_blockFrame (hb.mono (by simp))

theorem Invariant.setAnswer {s : State} (h : Invariant s) (a : Answer) : Invariant (s.setAnswer a) :=
  h.of_blockFrame (blockFrame_setAnswer s a _) rfl

theorem Invariant.beginTick {s : State} (h : Invariant s) (rnd : Byte) (pick : Nat) : Invariant (s.beginTick rnd pick) :=
  h.of_blockFrame (blockFrame_beginTick s rnd pick _) rfl

/-- The host's list of operations is no part of the block. -/
theorem Invariant.setPending {s : State} (h : Invariant s) (ops : List HostOp) : Invariant { s with pending := ops } :=
  h.of_blockFrame (by constructor <;> simp [State.reg]) rfl

/-- Fault entry keeps the invariant where the state explains the record it makes. -/
theorem Invariant.enterFault {s : State} (h : Invariant s) {c : Cause} {w : Option Word} {info : Option Nat}
    (hfit : FaultRecord.Fits ⟨c, s.pc, w, info⟩ s) : Invariant (enterFault c w info s) where
  memory := h.memory
  pc := h.pc
  stack := h.stack
  fault f hf := by
    cases hf
    exact hfit.of_blockFrame ((blockFrame_enterFault s c w info).mono (by simp))

/-! ### A running block -/

/-- A block that is not faulted has no record to explain. -/
theorem Invariant.of_running {s : State} (hf : s.fault = none) (hmem : s.mem.wf) (hpc : s.pc.toNat ≤ 0x10FE)
    (hstack : ∀ k : Fin 16, (s.stack.get k).toNat ≤ 0x1000) : Invariant s :=
  ⟨hmem, hpc, hstack, fun f h => by cases hf.symm.trans h⟩

section Running
variable {s : State} (h : Invariant s) (hf : s.fault = none)
include h hf

/-- On a running block the registers, `I`, the timers and the framebuffer are free to change. -/
theorem Invariant.update {t : State} (hmem : t.mem = s.mem) (hpc : t.pc = s.pc) (hstack : t.stack = s.stack)
    (hfault : t.fault = s.fault) : Invariant t :=
  .of_running (hfault.trans hf) (hmem ▸ h.memory) (hpc ▸ h.pc) (hstack ▸ h.stack)

theorem Invariant.setPc {a : Word} (ha : a.toNat ≤ 0x10FE) : Invariant (s.setPc a) := .of_running hf h.memory ha h.stack

theorem Invariant.skipIf (hpc : s.pc.toNat ≤ 0x1000) (c : Bool) : Invariant (s.skipIf c) := by
  rw [State.skipIf_eq]
  refine h.setPc hf ?_
  split
  · bv_omega
  · exact h.pc

/-- Bytes stored from `I` up within the address space leave memory canonical. -/
theorem Invariant.setMem_writeImage {a : Nat} {bs : List Byte} (ha : a + bs.length ≤ 4096) :
    Invariant (s.setMem (s.mem.writeImage a bs)) :=
  .of_running hf (Memory.wf_writeImage h.memory ha) h.pc h.stack

/-- A CALL pushes the address after it, which is at most 0x1000, and goes to a 12-bit address. -/
theorem Invariant.call (hpc : s.pc.toNat ≤ 0x1000) (nnn : Addr) (hsp : s.sp.val < 16) (p : Fin 17) :
    Invariant (State.setPc { s with stack := s.stack.set s.sp.val s.pc, sp := p } (zextAddr nnn)) := by
  refine .of_running hf h.memory ?_ fun k => ?_
  · have := nnn.toNat_lt
    rw [State.setPc_pc, zextAddr_toNat]
    omega
  · rw [State.setPc_stack, Vector.get_eq_getElem, Vector.getElem_set]
    split
    · exact hpc
    · exact h.stack k

/-- A RET goes to a return address, which is at most 0x1000. -/
theorem Invariant.ret (k : Fin 16) (p : Fin 17) : Invariant (State.setPc { s with sp := p } (s.stack.get k)) :=
  .of_running hf h.memory ((h.stack k).trans (by decide)) h.stack

/-- An instruction that completes, run where a fetch from at most 0xFFE leaves `PC`, keeps the invariant. -/
theorem exec_keeps_invariant {i : Instr} (hlo : 2 ≤ s.pc.toNat) (hhi : s.pc.toNat ≤ 0x1000) (hi : faultRaised i s = none) :
    ∃ t, exec i s = .next t ∧ Invariant t := by
  cases i with
  | nop => exact ⟨_, rfl, h⟩
  | cls => exact ⟨_, rfl, h.update hf rfl rfl rfl rfl⟩
  | ldVxNn | addVxNn | ldVxVy | orVxVy | andVxVy | xorVxVy | rndVxNn | ldVxDt
  | addVxVy | subVxVy | shrVxVy | subnVxVy | shlVxVy
  | ldINnn | addIVx | ldFVx | ldDtVx | ldStVx => exact ⟨_, rfl, h.update hf rfl rfl rfl rfl⟩
  | seVxNn | sneVxNn | seVxVy | sneVxVy => exact ⟨_, rfl, h.skipIf hf hhi _⟩
  | jp nnn =>
    refine ⟨_, rfl, h.setPc hf ?_⟩
    have := nnn.toNat_lt
    rw [zextAddr_toNat]
    omega
  | jpV0Nnn nnn =>
    refine ⟨_, rfl, h.setPc hf ?_⟩
    have := nnn.toNat_lt
    have := (s.reg 0).toNat_lt
    rw [BitVec.toNat_add, zextByte_toNat, zextAddr_toNat]
    omega
  | call nnn =>
    have hsp := faultRaised_call_eq_none.mp hi
    exact ⟨_, exec_call_of_lt s nnn hsp, h.call hf hhi nnn hsp _⟩
  | ret =>
    have hsp := faultRaised_ret_eq_none.mp hi
    exact ⟨_, exec_ret_of_pos s hsp, h.ret hf ⟨s.sp.val - 1, by omega⟩ _⟩
  | drwVxVyN x y n => exact ⟨_, exec_drw_of_le s x y n (faultRaised_drw_eq_none.mp hi), h.update hf rfl rfl rfl rfl⟩
  | skpVx x =>
    exact ⟨_, exec_skp_of_lt s x ⟨_, faultRaised_skp_eq_none.mp hi⟩ rfl, h.skipIf hf hhi _⟩
  | sknpVx x =>
    exact ⟨_, exec_sknp_of_lt s x ⟨_, faultRaised_sknp_eq_none.mp hi⟩ rfl, h.skipIf hf hhi _⟩
  | ldVxK x =>
    cases hk : keySelect (pressedKeys s) s.pick with
    | none => exact ⟨_, exec_ldVxK_of_noKey s x hk, h.setPc hf (by bv_omega)⟩
    | some k => exact ⟨_, exec_ldVxK_of_some s x k hk, h.update hf rfl rfl rfl rfl⟩
  | ldBVx x =>
    have hi := faultRaised_ldB_eq_none.mp hi
    exact ⟨_, exec_ldB_of_le s x hi, h.setMem_writeImage hf (by simp only [decimalDigits, List.length]; omega)⟩
  | ldMemVx x =>
    have hi := faultRaised_ldMem_eq_none.mp hi
    exact ⟨_, exec_ldMem_of_le s x hi, h.setMem_writeImage hf (by rw [regsUpTo_length]; omega)⟩
  | ldVxMem x =>
    refine ⟨_, exec_ldVxMem_of_le s x (faultRaised_ldVxMem_eq_none.mp hi), h.update hf ?_ ?_ ?_ ?_⟩ <;>
      rw [State.setRegsFrom_eq]

end Running

/-! ### The operations -/

/-- A TICK keeps the invariant, in each of the cases of 60_exceptions.md R184. -/
theorem tick_keeps_invariant {s t : State} (h : Invariant s) {rnd : Byte} {pick : Nat} (ht : tick rnd pick s = .next t) :
    Invariant t := by
  have hbegin := h.beginTick rnd pick
  obtain ⟨f, -, rfl⟩ | ⟨-, hp, rfl⟩ | ⟨hf, hp, -, rfl⟩ | ⟨i, hf, hp, hw, hexec⟩ := tick_cases ht
  · exact hbegin.setAnswer _
  · exact hbegin.enterFault ⟨rfl, rfl, rfl, hp⟩
  · exact (hbegin.setPc hf (by bv_omega)).setAnswer _
  · cases hi : faultRaised i s with
    | some f =>
      cases ht.symm.trans (tick_of_fault hf hp hw hi rnd pick)
      exact (hbegin.setAnswer _).enterFault ⟨rfl, hp, rfl, i, hw, hi⟩
    | none =>
      have hpc : (fetched rnd pick s).pc.toNat = s.pc.toNat + 2 := by
        change (s.pc + 2).toNat = _
        bv_omega
      have hfetched : Invariant (fetched rnd pick s) := (hbegin.setPc hf (by bv_omega)).setAnswer _
      obtain ⟨u, hu, hinv⟩ := exec_keeps_invariant hfetched hf (by omega) (by omega)
        ((faultRaised_fetched i rnd pick s).trans hi)
      cases hexec.symm.trans hu
      exact hinv

theorem resetBlock_invariant (s : State) : Invariant (resetBlock s) :=
  .of_running rfl (Memory.wf_empty _) (by simp [resetBlock, State.reset])
    fun k => by simp [resetBlock, State.reset, Vector.get_eq_getElem]

theorem loadImage_keeps_invariant {s : State} (h : Invariant s) (img : List Byte) : Invariant (loadImage img s) := by
  by_cases hf : s.fault = none
  · by_cases hl : img.length ≤ 3584
    · rw [loadImage_of_fits hf hl]
      exact (h.setMem_writeImage hf (by omega)).setAnswer _
    · rw [loadImage_of_long s (Nat.not_le.mp hl)]
      exact h.setAnswer _
  · rw [loadImage_of_faulted hf]
    exact h.setAnswer _

theorem tickTimers_keeps_invariant {s : State} (h : Invariant s) : Invariant (tickTimers s) := by
  by_cases hf : s.fault = none
  · rw [tickTimers_of_running hf]
    exact h.update hf rfl rfl rfl rfl
  · rw [tickTimers_of_faulted hf]
    exact h.setAnswer _

theorem setKey_keeps_invariant {s t : State} (h : Invariant s) {k : Nat} {p : Bool} (ht : setKey k p s = .next t) :
    Invariant t := by
  by_cases hk : k < 16
  · by_cases hf : s.fault = none
    · cases ht.symm.trans (setKey_of_running hf ⟨k, hk⟩ p)
      exact h.update hf rfl rfl rfl rfl
    · cases ht.symm.trans (setKey_of_faulted hf hk p)
      exact h.setAnswer _
  · cases ht.symm.trans (setKey_of_gt s (by omega) p)

theorem perform_keeps_invariant {op : HostOp} {s t : State} (h : Invariant s) (ht : perform op s = .next t) :
    Invariant t := by
  cases op with
  | reset => cases ht; exact resetBlock_invariant s
  | load img => cases ht; exact loadImage_keeps_invariant h img
  | setKey k p => exact setKey_keeps_invariant h ht
  | tick rnd pick => exact tick_keeps_invariant h ht
  | tickTimers => cases ht; exact tickTimers_keeps_invariant h
  | readFb => cases ht; exact h.setAnswer _

/-- Settles O17: a step is one operation, and each operation keeps the invariant. -/
theorem everyStepKeepsTheInvariant : Obligations.EveryStepKeepsTheInvariant := by
  unfold Obligations.EveryStepKeepsTheInvariant
  intro s t h ht
  obtain ⟨op, rest, -, hstep⟩ | ⟨-, hstep⟩ := step_cases s
  · exact perform_keeps_invariant (h.setPending rest) (hstep.symm.trans ht)
  · exact tick_keeps_invariant h (hstep.symm.trans ht)

end Sys2Proof.Machine

/-! PROOF. The value registers an instruction reads and writes (10_state.md R23, R24), as a statement about two runs: the second
starts from the state of the first with one register made another byte. -/

namespace Sys2Proof.Machine

/-! ### Two runs that differ in one register -/

/-- `t` came of `s`, and `u` of `s` with register `r` made `b`: they differ at most in `r`, which was either overwritten with one
value in both or kept in each. -/
structure DifferOnlyIn (r : Reg) (b : Byte) (s t u : State) : Prop where
  rest : u.setReg r 0 = t.setReg r 0
  own  : u.reg r = t.reg r ∨ (u.reg r = b ∧ t.reg r = s.reg r)

theorem State.setReg_setReg_same (s : State) (r : Reg) (b c : Byte) : (s.setReg r b).setReg r c = s.setReg r c := by
  simp [State.setReg]

theorem State.setReg_comm (s : State) {q r : Reg} (h : q ≠ r) (b c : Byte) :
    (s.setReg q b).setReg r c = (s.setReg r c).setReg q b := by
  simp [State.setReg, Vector.set_comm _ _ (Fin.val_ne_of_ne h)]

/-- One byte of a load of registers, in bounds, is a register write. -/
theorem State.setIfInBounds_eq_setReg (s : State) {k : Nat} (hk : k < 16) (b : Byte) :
    { s with v := s.v.setIfInBounds k b } = s.setReg ⟨k, hk⟩ b := by
  have : s.v.setIfInBounds k b = s.v.set k b := Vector.ext fun j hj => by
    rw [Vector.getElem_setIfInBounds, Vector.getElem_set]
  rw [State.setReg, this]

section DifferOnlyIn
variable {r : Reg} {b : Byte} {s t u : State}

theorem DifferOnlyIn.start (r : Reg) (b : Byte) (s : State) : DifferOnlyIn r b s s (s.setReg r b) :=
  ⟨s.setReg_setReg_same r b 0, .inr ⟨s.reg_setReg_self r b, rfl⟩⟩

/-- The same update of other parts in both runs. -/
theorem DifferOnlyIn.map (f : State → State) (h : DifferOnlyIn r b s t u)
    (hset : ∀ s c, f (s.setReg r c) = (f s).setReg r c := by intros; rfl)
    (hreg : ∀ s, (f s).reg r = s.reg r := by intros; rfl) : DifferOnlyIn r b s (f t) (f u) where
  rest := by rw [← hset, ← hset, h.rest]
  own := by rw [hreg, hreg]; exact h.own

/-- One register written with the same byte in both runs. -/
theorem DifferOnlyIn.setReg (h : DifferOnlyIn r b s t u) (x : Reg) (c : Byte) :
    DifferOnlyIn r b s (t.setReg x c) (u.setReg x c) := by
  by_cases hx : x = r
  · subst hx
    exact ⟨by simp only [State.setReg_setReg_same, h.rest], .inl (by simp)⟩
  · exact h.map (·.setReg x c) (fun s _ => (s.setReg_comm hx _ _).symm) fun s => s.reg_setReg_ne (Ne.symm hx) c

theorem DifferOnlyIn.setRegAndFlag (h : DifferOnlyIn r b s t u) (x : Reg) (c g : Byte) :
    DifferOnlyIn r b s (t.setRegAndFlag x c g) (u.setRegAndFlag x c g) :=
  (h.setReg x c).setReg VF g

theorem DifferOnlyIn.skipIf (h : DifferOnlyIn r b s t u) (c : Bool) : DifferOnlyIn r b s (t.skipIf c) (u.skipIf c) := by
  rw [State.skipIf_eq, State.skipIf_eq]
  exact h.map fun s => s.setPc (if c then s.pc + 2 else s.pc)

/-- The same bytes loaded into the registers from `k` up in both runs. -/
theorem DifferOnlyIn.setRegsFrom (h : DifferOnlyIn r b s t u) (k : Nat) (bs : List Byte) :
    DifferOnlyIn r b s (t.setRegsFrom k bs) (u.setRegsFrom k bs) := by
  induction bs generalizing k t u with
  | nil => exact h
  | cons c bs ih =>
    refine ih ?_ (k + 1)
    by_cases hk : k < 16
    · rw [State.setIfInBounds_eq_setReg t hk, State.setIfInBounds_eq_setReg u hk]
      exact h.setReg ⟨k, hk⟩ c
    · rw [Vector.setIfInBounds_eq_of_size_le (Nat.not_lt.mp hk), Vector.setIfInBounds_eq_of_size_le (Nat.not_lt.mp hk)]
      exact h

/-- The same update of other parts in both runs, by the value of a register that is the same in both. -/
theorem DifferOnlyIn.mapByReg (f : Byte → State → State) {x : Reg} (hx : (s.setReg r b).reg x = s.reg x)
    (hset : ∀ a s c, f a (s.setReg r c) = (f a s).setReg r c := by intros; rfl)
    (hreg : ∀ a s, (f a s).reg r = s.reg r := by intros; rfl) :
    DifferOnlyIn r b s (f (s.reg x) s) (f ((s.setReg r b).reg x) (s.setReg r b)) := by
  rw [hx]
  exact (start r b s).map (f _) (hset _) (hreg _)

theorem DifferOnlyIn.enterFault (h : DifferOnlyIn r b s t u) (c : Cause) (w : Option Word) (info : Option Nat) :
    DifferOnlyIn r b s (enterFault c w info t.beforeFetch) (enterFault c w info u.beforeFetch) :=
  h.map fun s => Machine.enterFault c w info s.beforeFetch

end DifferOnlyIn

/-! ### Where the table of faults names none -/

/-- A register the instruction does not read makes no difference to one that completes, but in that register itself. -/
theorem exec_differOnlyIn_of_noFault {i : Instr} {s : State} {r : Reg} (b : Byte) (h : faultRaised i s = none)
    (hread : ∀ x ∈ regsRead i, (s.setReg r b).reg x = s.reg x) :
    ∃ t u, exec i s = .next t ∧ exec i (s.setReg r b) = .next u ∧ DifferOnlyIn r b s t u := by
  have start := DifferOnlyIn.start r b s
  cases i with
  | nop => exact ⟨_, _, rfl, rfl, start⟩
  | cls => exact ⟨_, _, rfl, rfl, start.map (·.setFb darkFramebuffer)⟩
  | jp nnn => exact ⟨_, _, rfl, rfl, start.map (·.setPc (zextAddr nnn))⟩
  | ldINnn nnn => exact ⟨_, _, rfl, rfl, start.map (·.setI (zextAddr nnn))⟩
  | ldVxNn | rndVxNn | ldVxDt => exact ⟨_, _, rfl, rfl, start.setReg _ _⟩
  | addVxNn | ldVxVy | orVxVy | andVxVy | xorVxVy =>
    refine ⟨_, _, rfl, rfl, ?_⟩
    simp only [regsRead, List.forall_mem_cons] at hread
    simp only [hread]
    exact start.setReg _ _
  | addVxVy | subVxVy | shrVxVy | subnVxVy | shlVxVy =>
    refine ⟨_, _, rfl, rfl, ?_⟩
    simp only [regsRead, List.forall_mem_cons] at hread
    simp only [hread]
    exact start.setRegAndFlag _ _ _
  | seVxNn | sneVxNn | seVxVy | sneVxVy =>
    refine ⟨_, _, rfl, rfl, ?_⟩
    simp only [regsRead, List.forall_mem_cons] at hread
    simp only [hread]
    exact start.skipIf _
  | jpV0Nnn nnn =>
    exact ⟨_, _, rfl, rfl, .mapByReg (fun a s => s.setPc (zextByte a + zextAddr nnn)) (hread 0 (by simp [regsRead]))⟩
  | ldDtVx x => exact ⟨_, _, rfl, rfl, .mapByReg (fun a s => s.setDt a) (hread x (by simp [regsRead]))⟩
  | ldStVx x => exact ⟨_, _, rfl, rfl, .mapByReg (fun a s => s.setSt a) (hread x (by simp [regsRead]))⟩
  | addIVx x => exact ⟨_, _, rfl, rfl, .mapByReg (fun a s => s.setI (s.i + zextByte a)) (hread x (by simp [regsRead]))⟩
  | ldFVx x => exact ⟨_, _, rfl, rfl, .mapByReg (fun a s => s.setI (glyphAddress a)) (hread x (by simp [regsRead]))⟩
  | call nnn =>
    have hsp := faultRaised_call_eq_none.mp h
    exact ⟨_, _, exec_call_of_lt s nnn hsp, exec_call_of_lt (s.setReg r b) nnn hsp,
      start.map fun s' => State.setPc { s' with stack := s.stack.set s.sp.val s.pc, sp := ⟨s.sp.val + 1, by omega⟩ } _⟩
  | ret =>
    have hsp := faultRaised_ret_eq_none.mp h
    exact ⟨_, _, exec_ret_of_pos s hsp, exec_ret_of_pos (s.setReg r b) hsp,
      start.map fun s' => State.setPc { s' with sp := ⟨s.sp.val - 1, by omega⟩ } _⟩
  | drwVxVyN x y n =>
    have hn := faultRaised_drw_eq_none.mp h
    refine ⟨_, _, exec_drw_of_le s x y n hn, exec_drw_of_le (s.setReg r b) x y n hn, ?_⟩
    simp only [regsRead, List.forall_mem_cons] at hread
    simp only [hread]
    exact (start.map (·.setFb _)).setReg VF _
  | skpVx x =>
    have hx : (s.reg x).toNat < 16 := faultRaised_skp_eq_none.mp h
    have hx' : ((s.setReg r b).reg x).toNat = (s.reg x).toNat := by rw [hread x (by simp [regsRead])]
    exact ⟨_, _, exec_skp_of_lt s x ⟨_, hx⟩ rfl, exec_skp_of_lt (s.setReg r b) x ⟨_, hx⟩ hx', start.skipIf _⟩
  | sknpVx x =>
    have hx : (s.reg x).toNat < 16 := faultRaised_sknp_eq_none.mp h
    have hx' : ((s.setReg r b).reg x).toNat = (s.reg x).toNat := by rw [hread x (by simp [regsRead])]
    exact ⟨_, _, exec_sknp_of_lt s x ⟨_, hx⟩ rfl, exec_sknp_of_lt (s.setReg r b) x ⟨_, hx⟩ hx', start.skipIf _⟩
  | ldVxK x =>
    cases hk : keySelect (pressedKeys s) s.pick with
    | none =>
      exact ⟨_, _, exec_ldVxK_of_noKey s x hk, exec_ldVxK_of_noKey (s.setReg r b) x hk, start.map (·.setPc (s.pc - 2))⟩
    | some k =>
      exact ⟨_, _, exec_ldVxK_of_some s x k hk, exec_ldVxK_of_some (s.setReg r b) x k hk, start.setReg x _⟩
  | ldBVx x =>
    have hi := faultRaised_ldB_eq_none.mp h
    exact ⟨_, _, exec_ldB_of_le s x hi, exec_ldB_of_le (s.setReg r b) x hi,
      .mapByReg (fun a s => s.setMem (s.mem.writeImage s.i.toNat (decimalDigits a))) (hread x (by simp [regsRead]))⟩
  | ldMemVx x =>
    have hi := faultRaised_ldMem_eq_none.mp h
    have hregs : regsUpTo (s.setReg r b) x = regsUpTo s x := by
      rw [← regRange_map_reg, ← regRange_map_reg]
      exact List.map_congr_left hread
    refine ⟨_, _, exec_ldMem_of_le s x hi, exec_ldMem_of_le (s.setReg r b) x hi, ?_⟩
    rw [hregs]
    exact start.map (·.setMem _)
  | ldVxMem x =>
    have hi := faultRaised_ldVxMem_eq_none.mp h
    exact ⟨_, _, exec_ldVxMem_of_le s x hi, exec_ldVxMem_of_le (s.setReg r b) x hi, start.setRegsFrom 0 _⟩

/-- A register the instruction does not read makes no difference, whether the instruction faults or not. -/
theorem exec_differOnlyIn {i : Instr} (s : State) {r : Reg} (b : Byte) (hr : r ∉ regsRead i) :
    ∃ t u, exec i s = .next t ∧ exec i (s.setReg r b) = .next u ∧ DifferOnlyIn r b s t u := by
  have hread : ∀ x ∈ regsRead i, (s.setReg r b).reg x = s.reg x := fun x hx =>
    s.reg_setReg_ne (ne_of_mem_of_not_mem hx hr) b
  have hraised : faultRaised i (s.setReg r b) = faultRaised i s := faultRaised_congr rfl rfl hread
  cases h : faultRaised i s with
  | none => exact exec_differOnlyIn_of_noFault b h hread
  | some f =>
    exact ⟨_, _, exec_of_faultRaised h, exec_of_faultRaised (hraised.trans h), (DifferOnlyIn.start r b s).enterFault _ _ _⟩

/-- Settles O15: the frame of every instruction for the registers written, two runs for the registers read. -/
theorem noOtherRegisterIsReadOrWritten : Obligations.NoOtherRegisterIsReadOrWritten := by
  unfold Obligations.NoOtherRegisterIsReadOrWritten
  refine ⟨fun i s t ht r hr => exec_reg_of_notWritten ht hr, fun i s r b hr => ?_⟩
  obtain ⟨t, u, ht, hu, hrest, hown⟩ := exec_differOnlyIn s b hr
  exact ⟨t, u, ht, hu, hrest, hown⟩

/-! ### The flag register (10_state.md R23) -/

theorem byte_zero_or_one {b : Byte} (h : b.toNat < 2) : b = 0 ∨ b = 1 := by bv_omega

/-- An instruction that ends by writing a flag leaves it in VF. -/
theorem exec_flag_of_setRegAndFlag {i : Instr} {s : State} {x : Reg} {c g : Byte}
    (h : exec i s = .next (s.setRegAndFlag x c g)) (hg : g.toNat < 2) :
    ∃ t, exec i s = .next t ∧ (t.reg VF = 0 ∨ t.reg VF = 1) :=
  ⟨_, h, by rw [State.setRegAndFlag_flag]; exact byte_zero_or_one hg⟩

theorem exec_flagSetting {s : State} {x y : Reg} {n : Nibble} (hn : s.i.toNat + n.toNat ≤ 0x1000 ∨ n = 0) {i : Instr}
    (hi : i ∈ flagSetting x y n) : ∃ t, exec i s = .next t ∧ (t.reg VF = 0 ∨ t.reg VF = 1) := by
  simp only [flagSetting, List.mem_cons, List.not_mem_nil, or_false] at hi
  obtain rfl | rfl | rfl | rfl | rfl | rfl := hi
  · exact exec_flag_of_setRegAndFlag rfl (by rw [carryFlag_toNat]; split <;> omega)
  · exact exec_flag_of_setRegAndFlag rfl (by rw [noBorrowFlag_toNat]; split <;> omega)
  · exact exec_flag_of_setRegAndFlag rfl (by rw [lowBitFlag_toNat]; omega)
  · exact exec_flag_of_setRegAndFlag rfl (by rw [noBorrowFlag_toNat]; split <;> omega)
  · exact exec_flag_of_setRegAndFlag rfl (by rw [highBitFlag_toNat]; have := (s.reg x).toNat_lt; omega)
  · exact ⟨_, exec_drw_of_le s x y n hn.symm, by rw [State.reg_setReg_self]; exact flagByte_zero_or_one _⟩

/-- Settles O16: the flags are 0 or 1 by their own lemmas, and VF is kept wherever it is not a register written. -/
theorem flagsAreZeroOrOne : Obligations.FlagsAreZeroOrOne := by
  unfold Obligations.FlagsAreZeroOrOne
  refine ⟨fun s x y n hn i hi => exec_flagSetting hn hi, fun s i _ hvf => ?_⟩
  obtain ⟨t, ht⟩ := exec_answers_next i s
  exact ⟨t, ht, exec_reg_of_notWritten ht hvf⟩

/-! ### CALL, then RET (10_state.md R28) -/

theorem frame_setStack (s : State) (v : Vector Word 16) : Frame [.stack] s { s with stack := v } := by
  refine ⟨⟨?_, ?_, ?_, ?_, ?_, ?_, ?_, ?_, ?_, ?_, ?_⟩, ?_, ?_, ?_, ?_, ?_⟩ <;> simp [State.reg]

/-- A RET after a CALL leaves the state as it was, but for the slot that the CALL pushed. -/
theorem exec_call_then_ret (s : State) (nnn : Addr) (h : s.sp.val < 16) :
    ∃ t, exec (.call nnn) s = .next t ∧ exec .ret t = .next { s with stack := s.stack.set s.sp.val s.pc } := by
  refine ⟨_, exec_call_of_lt s nnn h, ?_⟩
  rw [exec_ret_of_pos _ (Nat.succ_pos s.sp.val)]
  simp [State.setPc]

/-- Settles O23. -/
theorem retReturnsAfterTheCall : Obligations.RetReturnsAfterTheCall := by
  unfold Obligations.RetReturnsAfterTheCall
  intro s nnn h
  obtain ⟨t, ht, hu⟩ := exec_call_then_ret s nnn h
  exact ⟨t, _, ht, hu, rfl, rfl, frame_setStack s _⟩

end Sys2Proof.Machine

/-! PROOF. The host's operations other than TICK, on a running block and on a faulted one (10_state.md R43 to R48). -/

namespace Sys2Proof.Machine

/-- Settles O11: on a faulted block every operation but RESET only records its answer. -/
theorem faultedBlockIsFrozen : Obligations.FaultedBlockIsFrozen := by
  unfold Obligations.FaultedBlockIsFrozen
  intro s f hf
  have hne : s.fault ≠ none := by simp [hf]
  have answered (a : Answer) : BlockFrame [] s (s.setAnswer a) := blockFrame_setAnswer s a []
  refine ⟨fun rnd pick => ?_, ?_, fun img => ?_, fun k p hk => ?_, ?_, ?_⟩
  · exact ⟨_, tick_of_faulted hf rnd pick, rfl, (blockFrame_beginTick s rnd pick []).trans (blockFrame_setAnswer _ _ _)⟩
  · exact ⟨_, congrArg Host.Outcome.next (tickTimers_of_faulted hne), rfl, answered _⟩
  · exact ⟨_, congrArg Host.Outcome.next (loadImage_of_faulted hne img), rfl, answered _⟩
  · exact ⟨_, setKey_of_faulted hne (Nat.lt_succ_of_le hk) p, answered _⟩
  · exact ⟨_, rfl, rfl, answered _⟩
  · exact ⟨_, rfl, rfl⟩

/-- Settles O44: the bytes of `writeImage`, and the two reasons to reject. -/
theorem loadWritesTheImageOrRejects : Obligations.LoadWritesTheImageOrRejects := by
  unfold Obligations.LoadWritesTheImageOrRejects
  intro s img
  constructor
  · intro hf hl
    refine ⟨_, congrArg Host.Outcome.next (loadImage_of_fits hf hl), rfl, ?_, fun k b hk => ?_, fun a ha => ?_⟩
    · exact (frame_setMem s _ (Memory.writeImage_font ..)).block.trans (blockFrame_setAnswer _ _ _)
    · obtain ⟨hlt, rfl⟩ := List.getElem?_eq_some_iff.mp hk
      rw [State.setAnswer_mem, State.setMem_mem, Memory.byteAt_writeImage, dif_pos (by omega)]
      simp
    · rw [State.setAnswer_mem, State.setMem_mem, Memory.byteAt_writeImage, dif_neg (by omega)]
  · rintro (hf | hl)
    · exact ⟨_, congrArg Host.Outcome.next (loadImage_of_faulted hf img), rfl, blockFrame_setAnswer s _ _⟩
    · exact ⟨_, congrArg Host.Outcome.next (loadImage_of_long s hl), rfl, blockFrame_setAnswer s _ _⟩

theorem blockFrame_setKey (s : State) (v : Vector Bool 16) (a : Answer) :
    BlockFrame [.key] s { s with key := v, answer := a } := by
  refine ⟨?_, ?_, ?_, ?_, ?_, ?_, ?_, ?_, ?_, ?_, ?_⟩ <;> simp [State.reg]

/-- Settles O45. -/
theorem setKeySetsOneKey : Obligations.SetKeySetsOneKey := by
  unfold Obligations.SetKeySetsOneKey
  intro s p
  refine ⟨fun k hf => ?_, fun k hf => ?_, fun k hk => setKey_of_gt s hk p⟩
  · exact ⟨_, setKey_of_running hf k p, blockFrame_setKey s _ _, fun j => key_get_set s.key k j p⟩
  · exact ⟨_, setKey_of_faulted hf k.isLt p, blockFrame_setAnswer s _ _⟩

/-- Settles O46. -/
theorem readFbIsRowMajor : Obligations.ReadFbIsRowMajor := by
  unfold Obligations.ReadFbIsRowMajor
  intro s
  exact ⟨_, _, rfl, rfl, blockFrame_setAnswer s _ _, flatPixels_length s.fb, flatPixels_getElem? s.fb⟩

end Sys2Proof.Machine

/-! PROOF. What memory holds after a store, as the next fetch reads it (20_memory.md R64, R74), and that the bytes memory reads as
determine its canonical form (R63; log entry 11). -/

namespace Sys2Proof.Machine

/-! ### Stored bytes are fetched (20_memory.md R74) -/

/-- A fetch after bytes were written to memory reads its word from the memory with those bytes in place. -/
theorem fetch_of_mem_writeImage {t : State} {m : Memory} {b : Nat} {bs : List Byte} (hm : t.mem = m.writeImage b bs) {a : Nat}
    (ha : a ≤ 0xFFE) :
    ∃ u, fetch (t.setPc (BitVec.ofNat 16 a)) = some (byteWithStored m b bs a ++ byteWithStored m b bs (a + 1), u) := by
  have hpc : (BitVec.ofNat 16 a).toNat = a := by rw [BitVec.toNat_ofNat]; omega
  have hle : (t.setPc (BitVec.ofNat 16 a)).pc.toNat ≤ 0xFFE := by rw [State.setPc_pc, hpc]; exact ha
  rw [fetch_of_le hle, State.setPc_pc, hpc, State.setPc_mem, hm, Memory.wordAt, Memory.byteAt_writeImage_eq,
    Memory.byteAt_writeImage_eq]
  exact ⟨_, rfl⟩

/-- Settles O35: all three operations leave the memory of one `writeImage`. -/
theorem storedBytesAreFetched : Obligations.StoredBytesAreFetched := by
  unfold Obligations.StoredBytesAreFetched
  refine ⟨fun s x a hi ha => ?_, fun s x a hi ha => ?_, fun s img a hf hl ha => ?_⟩
  · obtain ⟨u, hu⟩ := fetch_of_mem_writeImage (State.setMem_mem s _) ha
    exact ⟨_, u, exec_ldB_of_le s x hi, hu⟩
  · rw [regRange_map_reg]
    obtain ⟨u, hu⟩ := fetch_of_mem_writeImage (State.setMem_mem s _) ha
    exact ⟨_, u, exec_ldMem_of_le s x hi, hu⟩
  · obtain ⟨u, hu⟩ := fetch_of_mem_writeImage (t := (s.setMem _).setAnswer .ok) rfl ha
    exact ⟨_, u, congrArg Host.Outcome.next (loadImage_of_fits hf hl), hu⟩

/-! ### The canonical form is unique (20_memory.md R63; log entry 11) -/

/-- In a list of rising addresses, the byte looked up is the one listed. -/
theorem lookupCell_eq_some {l : List Host.Cell} (h : l.Pairwise (fun p q => p.1 < q.1)) (a : Nat) (v : Byte) :
    lookupCell l a = some v ↔ (a, v) ∈ l := by
  induction l with
  | nil => simp [lookupCell]
  | cons c t ih =>
    obtain ⟨k, w⟩ := c
    obtain ⟨hk, ht⟩ := List.pairwise_cons.mp h
    by_cases hka : k = a
    · subst hka
      have hnot : (k, v) ∉ t := fun hm => Nat.lt_irrefl k (hk _ hm)
      simp [lookupCell, hnot, eq_comm]
    · simp [lookupCell, hka, Ne.symm hka, ih ht]

/-- Rising addresses leave one order for the cells of a list. -/
theorem eq_of_rising_of_mem_iff {l k : List Host.Cell} (hl : l.Pairwise (fun p q => p.1 < q.1))
    (hk : k.Pairwise (fun p q => p.1 < q.1)) (h : ∀ c, c ∈ l ↔ c ∈ k) : l = k := by
  have : Std.Irrefl fun p q : Host.Cell => p.1 < q.1 := ⟨fun _ => Nat.lt_irrefl _⟩
  have : Std.Antisymm fun p q : Host.Cell => p.1 < q.1 := ⟨fun _ _ h h' => absurd h (Nat.lt_asymm h')⟩
  exact hl.eq_of_mem_iff hk h

/-- The cells of a memory in canonical form are the addresses that do not read as unlisted, each with the byte it reads as. -/
theorem Memory.mem_cells_iff {m : Memory} (h : m.wf) (a : Nat) (v : Byte) :
    (a, v) ∈ m.cells ↔ a < 4096 ∧ m.byteAt a = v ∧ v ≠ m.unlisted a := by
  obtain ⟨hr, hc⟩ := h
  constructor
  · intro hm
    obtain ⟨ha, hv⟩ := hc _ hm
    refine ⟨ha, ?_, hv⟩
    rw [Memory.byteAt, (lookupCell_eq_some hr a v).mpr hm, Option.getD_some]
  · rintro ⟨-, hb, hv⟩
    rw [← lookupCell_eq_some hr]
    cases hl : lookupCell m.cells a with
    | none => exact absurd (by rw [← hb, Memory.byteAt, hl, Option.getD_none]) hv
    | some w => rw [← hb, Memory.byteAt, hl, Option.getD_some]

/-- Settles O36: two lists with rising addresses and the same cells are one list. -/
theorem canonicalMemoriesThatReadAlikeAreEqual : Obligations.CanonicalMemoriesThatReadAlikeAreEqual := by
  unfold Obligations.CanonicalMemoriesThatReadAlikeAreEqual
  intro m l hm hl hfont hread
  have hunlisted (a : Nat) : m.unlisted a = l.unlisted a := by rw [Memory.unlisted, Memory.unlisted, hfont]
  have hcells : ∀ c, c ∈ m.cells ↔ c ∈ l.cells := by
    rintro ⟨a, v⟩
    rw [Memory.mem_cells_iff hm, Memory.mem_cells_iff hl, hunlisted]
    exact and_congr_right fun ha => by rw [hread a ha]
  have heq : m.cells = l.cells := eq_of_rising_of_mem_iff hm.1 hl.1 hcells
  cases m
  cases l
  exact congrArg₂ Memory.mk hfont heq

end Sys2Proof.Machine

/-! PROOF. The decoder against the encoder and against the table (30_encoding.md R83, R85, R86): an encoding decodes to its
instruction, a word is decoded by the one row that selects it, and the words that no row selects. -/

namespace Sys2Proof

/-! ### Decoding an encoding (R83) -/

/-- The fields of the layout an instruction is encoded in are the ones its row of the decoder reads. -/
theorem decodeWord_encode (i : Instr) : decodeWord (encode i) = some i := by
  cases i with
  | nop | cls | ret => rfl
  | jp | call | ldINnn | jpV0Nnn | seVxNn | sneVxNn | ldVxNn | addVxNn | rndVxNn | drwVxVyN => simp [encode, decodeWord]
  | seVxVy | sneVxVy => simp [encode, decodeWord, decodeSub0]
  | ldVxVy | orVxVy | andVxVy | xorVxVy | addVxVy | subVxVy | shrVxVy | subnVxVy | shlVxVy =>
    simp [encode, decodeWord, decodeMajor8]
  | skpVx | sknpVx => simp [encode, decodeWord, decodeMajorE]
  | ldVxDt | ldVxK | ldDtVx | ldStVx | addIVx | ldFVx | ldBVx | ldMemVx | ldVxMem =>
    simp [encode, decodeWord, decodeMajorF]

/-- The bytes of a supported word decode to its instruction, and the bytes after them are left (R64, R80). -/
theorem decodeBytes_wordBytes {w : Word} {i : Instr} (h : decodeWord w = some i) (rest : List Byte) :
    decodeBytes (wordBytes w ++ rest) = .ok (i, rest) := by
  simp [wordBytes, decodeBytes, wordBytes_append, h]

/-- Settles O1: the word's two bytes make it up again, and its layout's fields are the operands. -/
theorem decodingAnEncodingGivesTheInstruction : Obligations.DecodingAnEncodingGivesTheInstruction := by
  unfold Obligations.DecodingAnEncodingGivesTheInstruction
  intro i rest _
  exact decodeBytes_wordBytes (decodeWord_encode i) rest

/-- Settles O2: the encoder puts together again the fields the decoder read. -/
theorem encodingADecodedWordGivesTheWord : Obligations.EncodingADecodedWordGivesTheWord := by
  unfold Obligations.EncodingADecodedWordGivesTheWord
  exact fun _ _ => encode_of_decodeWord

/-! ### The unsupported words (R86) -/

theorem fieldB1_toNat (w : Word) : (fieldB1 w).toNat = w.toNat / 0x1000 := by
  have := Word.toNat_lt w
  simp only [fieldB1, BitVec.extractLsb'_toNat, Nat.shiftRight_eq_div_pow]
  omega

theorem fieldN_toNat (w : Word) : (fieldN w).toNat = w.toNat % 16 := by simp [fieldN]

theorem fieldNN_toNat (w : Word) : (fieldNN w).toNat = w.toNat % 256 := by simp [fieldNN]

section Unsupported
variable {w : Word}

theorem decodeMajor0_eq_none : decodeMajor0 w = none ↔ w.toNat ≠ 0x0000 ∧ w.toNat ≠ 0x00E0 ∧ w.toNat ≠ 0x00EE := by
  simp only [decodeMajor0, BitVec.toNat_eq]
  split_ifs <;> simp_all

theorem decodeSub0_eq_none {i : Instr} : decodeSub0 w i = none ↔ (fieldN w).toNat ≠ 0 := by
  unfold decodeSub0
  split <;> simp_all

theorem decodeMajor8_eq_none : decodeMajor8 w = none ↔ 8 ≤ (fieldN w).toNat ∧ (fieldN w).toNat ≠ 0xE := by
  unfold decodeMajor8
  split <;> simp_all
  omega

theorem decodeMajorE_eq_none : decodeMajorE w = none ↔ (fieldNN w).toNat ≠ 0x9E ∧ (fieldNN w).toNat ≠ 0xA1 := by
  unfold decodeMajorE
  split <;> simp_all

theorem decodeMajorF_eq_none :
    decodeMajorF w = none ↔ (fieldNN w).toNat ∉ [0x07, 0x0A, 0x15, 0x18, 0x1E, 0x29, 0x33, 0x55, 0x65] := by
  unfold decodeMajorF
  split <;> simp_all

/-- The unsupported words, by the fields the decoder tests (R82, R86). -/
theorem decodeWord_eq_none : decodeWord w = none ↔
    ((fieldB1 w).toNat = 0x0 ∧ w.toNat ≠ 0x0000 ∧ w.toNat ≠ 0x00E0 ∧ w.toNat ≠ 0x00EE) ∨
    ((fieldB1 w).toNat = 0x5 ∧ (fieldN w).toNat ≠ 0) ∨
    ((fieldB1 w).toNat = 0x8 ∧ 8 ≤ (fieldN w).toNat ∧ (fieldN w).toNat ≠ 0xE) ∨
    ((fieldB1 w).toNat = 0x9 ∧ (fieldN w).toNat ≠ 0) ∨
    ((fieldB1 w).toNat = 0xE ∧ (fieldNN w).toNat ≠ 0x9E ∧ (fieldNN w).toNat ≠ 0xA1) ∨
    ((fieldB1 w).toNat = 0xF ∧ (fieldNN w).toNat ∉ [0x07, 0x0A, 0x15, 0x18, 0x1E, 0x29, 0x33, 0x55, 0x65]) := by
  have hlt := Nibble.toNat_lt (fieldB1 w)
  unfold decodeWord
  split
  case h_1 hm => simp [hm, decodeMajor0_eq_none]
  case h_6 hm | h_10 hm => simp [hm, decodeSub0_eq_none]
  case h_9 hm => simp [hm, decodeMajor8_eq_none]
  case h_15 hm => simp [hm, decodeMajorE_eq_none]
  case h_16 hm => simp [hm, decodeMajorF_eq_none]
  case h_17 => interval_cases (fieldB1 w).toNat <;> contradiction
  all_goals next hm => simp [hm]

end Unsupported

/-- Settles O4: the fields the decoder tests, as quotient and remainders of the word. -/
theorem unsupportedWordsByMajorOpcode : Obligations.UnsupportedWordsByMajorOpcode := by
  unfold Obligations.UnsupportedWordsByMajorOpcode
  intro w
  rw [decodeWord_eq_none, fieldB1_toNat, fieldN_toNat, fieldNN_toNat, Nat.div_eq_zero_iff_lt (by decide)]

/-! ### The rows of the table (R85) -/

/-- The mask of a row fixes the major opcode, and whatever else the decoder tests under that major opcode. -/
theorem mask_covers_testedFields : ∀ r ∈ opcodeRows,
    fieldB1 r.mask = BitVec.allOnes 4 ∧
    ((fieldB1 r.pat).toNat = 0 → r.mask = BitVec.allOnes 16) ∧
    ((fieldB1 r.pat).toNat ∈ [5, 8, 9] → fieldN r.mask = BitVec.allOnes 4) ∧
    ((fieldB1 r.pat).toNat ∈ [14, 15] → fieldNN r.mask = BitVec.allOnes 8) := by decide

theorem decodeWord_pat_ne_none : ∀ r ∈ opcodeRows, decodeWord r.pat ≠ none := by decide

theorem opcodeRows_num_injective : ∀ r ∈ opcodeRows, ∀ q ∈ opcodeRows, r.num = q.num → r = q := by decide

/-- The patterns of two different rows differ in a bit that both masks fix. -/
theorem opcodeRows_disjoint : ∀ r ∈ opcodeRows, ∀ q ∈ opcodeRows, r.pat &&& q.mask = q.pat &&& r.mask → r = q := by
  decide

section Rows
variable {r q : OpcodeRow} {w : Word}

theorem OpcodeRow.selects_iff : r.selects w = true ↔ w &&& r.mask = r.pat := beq_iff_eq

/-- No word is selected by two rows. -/
theorem OpcodeRow.eq_of_selects (hr : r ∈ opcodeRows) (hq : q ∈ opcodeRows) (h : r.selects w = true)
    (g : q.selects w = true) : r = q := by
  rw [OpcodeRow.selects_iff] at h g
  refine opcodeRows_disjoint r hr q hq ?_
  rw [← h, ← g, BitVec.and_assoc, BitVec.and_assoc, BitVec.and_comm r.mask]

/-- A field that a mask fixes is the same in the word and in what the mask leaves of it. -/
theorem extract_of_mask {m p : Word} {k l : Nat} (h : w &&& m = p) (hm : m.extractLsb' k l = BitVec.allOnes l) :
    w.extractLsb' k l = p.extractLsb' k l := by
  rw [← h, BitVec.extractLsb'_and, hm, BitVec.and_allOnes]

/-- A word that a row selects is supported: it agrees with the row's pattern on every field the decoder tests. -/
theorem decodeWord_ne_none_of_selects (hr : r ∈ opcodeRows) (h : r.selects w = true) : decodeWord w ≠ none := by
  rw [OpcodeRow.selects_iff] at h
  obtain ⟨hmask, h0, hN, hNN⟩ := mask_covers_testedFields r hr
  have hB : fieldB1 w = fieldB1 r.pat := extract_of_mask h hmask
  have exact0 (e : (fieldB1 w).toNat = 0) : w = r.pat := by rw [← h, h0 (hB ▸ e), BitVec.and_allOnes]
  have sameN (e : (fieldB1 w).toNat ∈ [5, 8, 9]) : fieldN w = fieldN r.pat := extract_of_mask h (hN (hB ▸ e))
  have sameNN (e : (fieldB1 w).toNat ∈ [14, 15]) : fieldNN w = fieldNN r.pat := extract_of_mask h (hNN (hB ▸ e))
  intro hnone
  refine decodeWord_pat_ne_none r hr ?_
  rw [decodeWord_eq_none] at hnone ⊢
  rw [← hB]
  rcases hnone with ⟨e, hrest⟩ | ⟨e, hrest⟩ | ⟨e, hrest⟩ | ⟨e, hrest⟩ | ⟨e, hrest⟩ | ⟨e, hrest⟩
  · exact .inl ⟨e, exact0 e ▸ hrest⟩
  · exact .inr (.inl ⟨e, sameN (by simp [e]) ▸ hrest⟩)
  · exact .inr (.inr (.inl ⟨e, sameN (by simp [e]) ▸ hrest⟩))
  · exact .inr (.inr (.inr (.inl ⟨e, sameN (by simp [e]) ▸ hrest⟩)))
  · exact .inr (.inr (.inr (.inr (.inl ⟨e, sameNN (by simp [e]) ▸ hrest⟩))))
  · exact .inr (.inr (.inr (.inr (.inr ⟨e, sameNN (by simp [e]) ▸ hrest⟩))))

end Rows

/-! ### The row of an instruction (R83, R85) -/

section Masks
variable (op n : Nibble) (x y : Reg) (sub : Byte)

/-- The mask 0xF000 keeps the major opcode of every layout: layouts `NNN`, `XNN` and `XYN` differ below it. -/
theorem append_and_F000 (b : BitVec 12) : (op ++ b) &&& 0xF000#16 = op ++ 0x000#12 := by
  have hmask : 0xF000#16 = BitVec.allOnes 4 ++ 0x000#12 := rfl
  rw [hmask, BitVec.and_append, BitVec.and_allOnes, BitVec.and_zero]

theorem layoutXYN_and_F00F : layoutXYN op x y n &&& 0xF00F#16 = op ++ (0x0#4 ++ (0x0#4 ++ n)) := by
  have hmask : 0xF00F#16 = BitVec.allOnes 4 ++ (0x0#4 ++ (0x0#4 ++ BitVec.allOnes 4)) := rfl
  rw [hmask, layoutXYN, BitVec.and_append, BitVec.and_append, BitVec.and_append, BitVec.and_allOnes, BitVec.and_allOnes,
    BitVec.and_zero, BitVec.and_zero]

theorem layoutXSS_and_F0FF : layoutXSS op x sub &&& 0xF0FF#16 = op ++ (0x0#4 ++ sub) := by
  have hmask : 0xF0FF#16 = BitVec.allOnes 4 ++ (0x0#4 ++ BitVec.allOnes 8) := rfl
  rw [hmask, layoutXSS, BitVec.and_append, BitVec.and_append, BitVec.and_allOnes, BitVec.and_allOnes, BitVec.and_zero]

end Masks

/-- The row of an instruction stands at its number in the table, and selects its encoding whatever the operands. -/
theorem encode_selected (i : Instr) :
    ∃ r, opcodeRows[i.toRaw.row - 1]? = some r ∧ r.num = i.toRaw.row ∧ r.selects (encode i) = true := by
  cases i with
  | nop | cls | ret => exact ⟨_, rfl, rfl, rfl⟩
  | jp | call | ldINnn | jpV0Nnn | seVxNn | sneVxNn | ldVxNn | addVxNn | rndVxNn | drwVxVyN =>
    exact ⟨_, rfl, rfl, OpcodeRow.selects_iff.mpr (append_and_F000 _ _)⟩
  | seVxVy | sneVxVy | ldVxVy | orVxVy | andVxVy | xorVxVy | addVxVy | subVxVy | shrVxVy | subnVxVy | shlVxVy =>
    exact ⟨_, rfl, rfl, OpcodeRow.selects_iff.mpr (layoutXYN_and_F00F ..)⟩
  | skpVx | sknpVx | ldVxDt | ldVxK | ldDtVx | ldStVx | addIVx | ldFVx | ldBVx | ldMemVx | ldVxMem =>
    exact ⟨_, rfl, rfl, OpcodeRow.selects_iff.mpr (layoutXSS_and_F0FF ..)⟩

/-- The row of a decoded instruction selects the word. -/
theorem exists_row_of_decodeWord {w : Word} {i : Instr} (h : decodeWord w = some i) :
    ∃ r ∈ opcodeRows, r.num = i.toRaw.row ∧ r.selects w = true := by
  obtain ⟨r, hr, hnum, hsel⟩ := encode_selected i
  rw [encode_of_decodeWord h] at hsel
  exact ⟨r, List.mem_of_getElem? hr, hnum, hsel⟩

/-- Settles O3: the instruction's own row selects the word, no two rows do, and a selected word is supported. -/
theorem decodeFollowsTheTableRow : Obligations.DecodeFollowsTheTableRow := by
  unfold Obligations.DecodeFollowsTheTableRow
  intro w
  refine ⟨fun i hi r hr => ?_, fun hnone r hr => ?_, fun hno => ?_⟩
  · obtain ⟨q, hq, hnum, hsel⟩ := exists_row_of_decodeWord hi
    constructor
    · intro h
      rw [OpcodeRow.eq_of_selects hr hq h hsel, hnum]
    · intro h
      rwa [opcodeRows_num_injective r hr q hq (h.trans hnum.symm)]
  · exact Bool.eq_false_iff.mpr fun h => decodeWord_ne_none_of_selects hr h hnone
  · cases hi : decodeWord w with
    | none => rfl
    | some i =>
      obtain ⟨q, hq, -, hsel⟩ := exists_row_of_decodeWord hi
      cases (hno q hq).symm.trans hsel

/-- Settles O5: each word is closed, so the decoder runs on it. -/
theorem writtenOutWordsDecodeAsTheTableSays : Obligations.WrittenOutWordsDecodeAsTheTableSays := by
  unfold Obligations.WrittenOutWordsDecodeAsTheTableSays
  decide

end Sys2Proof

/-! PROOF. The fetch, and a tick that fetches an unsupported word (30_encoding.md R81, R87). -/

namespace Sys2Proof.Machine

/-- Settles O6: the two equations of `fetch`, and that of a tick whose fetch faults. -/
theorem fetchIsBigEndianAndAdvances : Obligations.FetchIsBigEndianAndAdvances := by
  unfold Obligations.FetchIsBigEndianAndAdvances
  intro s
  constructor
  · intro hp
    have hpc : (s.pc + 2).toNat = s.pc.toNat + 2 := by bv_omega
    exact ⟨_, _, fetch_of_le hp, wordAt_toNat s.mem _, hpc, frame_setPc s _⟩
  · intro hp
    refine ⟨fetch_of_gt hp, fun hf rnd pick => ⟨_, tick_of_fetchFault hf hp rnd pick, rfl, rfl, ?_⟩⟩
    exact (blockFrame_beginTick s rnd pick _).trans (blockFrame_enterFault _ _ _ _)

/-- Settles O9: the tick's equation is three updates, and only the advance of `PC` touches the block. -/
theorem unsupportedWordOnlyAdvancesThePc : Obligations.UnsupportedWordOnlyAdvancesThePc := by
  unfold Obligations.UnsupportedWordOnlyAdvancesThePc
  intro s rnd pick hf hp hw
  refine ⟨_, tick_of_unsupported hf hp hw rnd pick, rfl, rfl, hf, ?_⟩
  exact ((blockFrame_beginTick s rnd pick _).trans (frame_setPc _ _).block).trans (blockFrame_setAnswer _ _ _)

end Sys2Proof.Machine

/-! PROOF. Control flow, instruction by instruction (40_control.md R101 to R109). -/

namespace Sys2Proof.Machine

/-! ### Jumps and skips -/

/-- The target of JP V0, NNN is at most `0x10FE`, so it does not wrap (40_control.md R109). -/
theorem zextByte_add_zextAddr_toNat (b : Byte) (a : Addr) : (zextByte b + zextAddr a).toNat = b.toNat + a.toNat := by
  have hb : b.toNat < 256 := b.isLt
  have ha : a.toNat < 4096 := a.isLt
  rw [BitVec.toNat_add, zextByte_toNat, zextAddr_toNat]
  omega

theorem State.skipIf_pc (s : State) (c : Bool) : (s.skipIf c).pc = if c then s.pc + 2 else s.pc := by
  rw [State.skipIf_eq, State.setPc_pc]

/-- An instruction that skips on `c` moves `PC` past one more word where `c` is true, not where it is false, and writes nothing
else (40_control.md R100): `p` and `q` are what its rule says of the two cases. -/
theorem skips_of_exec {i : Instr} {s : State} {c : Bool} {p q : Prop} (h : exec i s = .next (s.skipIf c))
    (hp : p → c = true) (hq : q → c = false) :
    ∃ t, exec i s = .next t ∧ Frame [.pc] s t ∧ (p → t.pc = s.pc + 2) ∧ (q → t.pc = s.pc) := by
  refine ⟨_, h, frame_skipIf s c, fun hp' => ?_, fun hq' => ?_⟩
  · rw [State.skipIf_pc, hp hp', if_pos rfl]
  · rw [State.skipIf_pc, hq hq', if_neg Bool.false_ne_true]

/-- Settles O19: each is at most one write of `PC`, and neither target wraps. -/
theorem nopAndJumpsSetThePc : Obligations.NopAndJumpsSetThePc := by
  unfold Obligations.NopAndJumpsSetThePc
  intro s nnn
  refine ⟨?nop, ?jp, ?jpV0⟩
  case nop => exact ⟨_, rfl, rfl, .refl _ s⟩
  case jp => exact ⟨_, rfl, zextAddr_toNat nnn, frame_setPc s _⟩
  case jpV0 => exact ⟨_, rfl, zextByte_add_zextAddr_toNat _ nnn, frame_setPc s _⟩

/-- Settles O20: the four are one skip, on `==` or on `!=`. -/
theorem skipsFollowTheirCondition : Obligations.SkipsFollowTheirCondition := by
  unfold Obligations.SkipsFollowTheirCondition
  intro s x y nn
  refine ⟨?seVxNn, ?sneVxNn, ?seVxVy, ?sneVxVy⟩
  case seVxNn | seVxVy => exact skips_of_exec rfl beq_iff_eq.mpr beq_eq_false_iff_ne.mpr
  case sneVxNn | sneVxVy => exact skips_of_exec rfl bne_iff_ne.mpr bne_eq_false_iff_eq.mpr

/-! ### CALL and RET -/

theorem stack_get_set (v : Vector Word 16) {n : Nat} (hn : n < 16) (a : Word) (k : Fin 16) :
    (v.set n a).get k = if k.val = n then a else v.get k := by
  simp only [Vector.get_eq_getElem, Vector.getElem_set, eq_comm]

/-- Settles O21: the push writes slot `SP`. -/
theorem callPushesTheReturnAddress : Obligations.CallPushesTheReturnAddress := by
  unfold Obligations.CallPushesTheReturnAddress
  intro s nnn
  constructor
  · intro hsp
    exact ⟨_, exec_call_of_lt s nnn hsp, zextAddr_toNat nnn, rfl, stack_get_set s.stack hsp s.pc,
      frame_setStack_setPc s _ _ _⟩
  · intro hsp
    exact takesFault_of_raise (exec_call_of_full s nnn hsp)

/-- RET with the slot it pops named: `k` is the top of the stack. -/
theorem exec_ret_of_top (s : State) (k : Fin 16) (h : s.sp.val = k.val + 1) :
    exec .ret s = .next (State.setPc { s with sp := k.castSucc } (s.stack.get k)) := by
  have hsp : s.sp = k.succ := Fin.ext h
  rw [exec_ret_of_pos s (by omega)]
  simp only [hsp, Fin.val_succ, Nat.add_sub_cancel]
  rfl

/-- Settles O22: the pop moves `SP` to the slot it reads, and writes none. -/
theorem retPopsTheReturnAddress : Obligations.RetPopsTheReturnAddress := by
  unfold Obligations.RetPopsTheReturnAddress
  intro s
  constructor
  · intro k hk
    exact ⟨_, exec_ret_of_top s k hk, rfl, rfl, rfl, frame_setStack_setPc s s.stack _ _⟩
  · intro hsp
    exact takesFault_of_raise (exec_ret_of_empty s hsp)

end Sys2Proof.Machine

/-! PROOF. The framebuffer clear and the sprite compositor (41_display.md R120 to R124): what a draw does is said once, in
`SpriteDrawn`, and each statement about draws is read from it. -/

namespace Sys2Proof.Machine

/-! ### The clear (41_display.md R120) -/

theorem flatPixels_dark : flatPixels darkFramebuffer = List.replicate 2048 false := by
  refine List.eq_replicate_iff.mpr ⟨flatPixels_length _, fun b hb => ?_⟩
  obtain ⟨row, hrow, hmem⟩ := List.mem_flatMap.mp hb
  have hdark : row = Vector.replicate 64 false := by simpa [darkFramebuffer] using hrow
  simpa [hdark] using hmem

/-- Settles O24. -/
theorem clsDarkensEveryPixel : Obligations.ClsDarkensEveryPixel := by
  unfold Obligations.ClsDarkensEveryPixel
  intro s
  exact ⟨_, rfl, frame_setFb s _, pixelAt_dark, _, rfl, congrArg Answer.pixels flatPixels_dark⟩

/-! ### One draw (41_display.md R121, R123) -/

theorem flagByte_eq_one (b : Bool) : flagByte b = 1 ↔ b = true := by cases b <;> decide

/-- The state `t` is `s` with the sprite of `DRW VX, VY, N` drawn in it. -/
structure SpriteDrawn (x y : Reg) (n : Nibble) (s t : State) : Prop where
  frame     : Frame [.fb, .v VF] s t
  touched   : ∀ {px py}, spriteTouches s x y n px py → pixelAt t.fb px py = !pixelAt s.fb px py
  untouched : ∀ {px py}, ¬ spriteTouches s x y n px py → pixelAt t.fb px py = pixelAt s.fb px py
  flag      : t.reg VF = 0 ∨ t.reg VF = 1
  hit       : t.reg VF = 1 ↔ ∃ px py, spriteTouches s x y n px py ∧ pixelAt s.fb px py = true

section Draw
variable {x y : Reg} {n : Nibble} {s t u : State}

/-- A draw whose rows are all in range completes: the list of pixels it folds over is the sprite's, each pixel once. -/
theorem exec_drw_draws (h : n = 0 ∨ s.i.toNat + n.toNat ≤ 0x1000) :
    ∃ t, exec (.drwVxVyN x y n) s = .next t ∧ SpriteDrawn x y n s t := by
  have hnodup := nodup_sprite s (s.reg x).toNat (s.reg y).toNat n
  refine ⟨_, exec_drw_of_le s x y n h, ?frame, fun ht => ?touched, fun ht => ?untouched, ?flag, ?hit⟩
  case frame => exact ((frame_setFb s _).mono (by simp)).trans ((frame_setReg _ VF _).mono (by simp))
  case touched =>
    rw [State.setReg_fb, State.setFb_fb, pixelAt_drawPixels hnodup, if_pos ((mem_spritePixels_iff_touches ..).mpr ht)]
  case untouched =>
    rw [State.setReg_fb, State.setFb_fb, pixelAt_drawPixels hnodup, if_neg (mt (mem_spritePixels_iff_touches ..).mp ht)]
  case flag =>
    rw [State.reg_setReg_self]
    exact flagByte_zero_or_one _
  case hit =>
    simp only [State.reg_setReg_self, flagByte_eq_one, drawPixels_hit hnodup, Prod.exists, mem_spritePixels_iff_touches]

theorem SpriteDrawn.flag_eq_zero (h : SpriteDrawn x y n s t)
    (hno : ¬ ∃ px py, spriteTouches s x y n px py ∧ pixelAt s.fb px py = true) : t.reg VF = 0 :=
  h.flag.resolve_right (mt h.hit.mp hno)

/-! ### The same sprite drawn again (41_display.md R124) -/

/-- The sprite depends on `I`, VX, VY and memory, so it is the same after a draw that leaves VX and VY alone. -/
theorem SpriteDrawn.spriteTouches_iff (h : SpriteDrawn x y n s t) (hx : t.reg x = s.reg x) (hy : t.reg y = s.reg y)
    (px : Fin 64) (py : Fin 32) : spriteTouches t x y n px py ↔ spriteTouches s x y n px py := by
  have hi : t.i = s.i := h.frame.block.i (by simp)
  have hmem : ∀ a, t.mem.byteAt a = s.mem.byteAt a := h.frame.block.mem (by simp)
  simp only [spriteTouches, hi, hmem, hx, hy]

theorem SpriteDrawn.fb_of_twice (h : SpriteDrawn x y n s t) (g : SpriteDrawn x y n t u) (hx : t.reg x = s.reg x)
    (hy : t.reg y = s.reg y) : u.fb = s.fb := by
  refine framebuffer_ext fun px py => ?_
  have hsame := h.spriteTouches_iff hx hy px py
  by_cases hs : spriteTouches s x y n px py
  · rw [g.touched (hsame.mpr hs), h.touched hs, Bool.not_not]
  · rw [g.untouched (mt hsame.mp hs), h.untouched hs]

/-- A pixel is lit at the second draw exactly where it was dark at the first. -/
theorem SpriteDrawn.hit_of_twice (h : SpriteDrawn x y n s t) (g : SpriteDrawn x y n t u) (hx : t.reg x = s.reg x)
    (hy : t.reg y = s.reg y) :
    u.reg VF = 1 ↔ ∃ px py, spriteTouches s x y n px py ∧ pixelAt s.fb px py = false := by
  rw [g.hit]
  refine exists_congr fun px => exists_congr fun py => ?_
  rw [h.spriteTouches_iff hx hy]
  refine and_congr_right fun hs => ?_
  rw [h.touched hs, Bool.not_eq_true']

/-- A sprite touches a pixel exactly where it has a set bit, whichever end its bits are counted from. -/
theorem exists_spriteTouches : (∃ px py, spriteTouches s x y n px py) ↔
    ∃ r < n.toNat, ∃ c < 8, (s.mem.byteAt (s.i.toNat + r)).getLsbD c = true := by
  constructor
  · rintro ⟨_, _, r, hr, c, hc, hbit, -, -⟩
    exact ⟨r, hr, 7 - c, by omega, hbit⟩
  · rintro ⟨r, hr, c, hc, hbit⟩
    exact ⟨Fin.ofNat 64 _, Fin.ofNat 32 _, r, hr, 7 - c, by omega, by rwa [Nat.sub_sub_self (by omega)], rfl, rfl⟩

end Draw

/-- Settles O25. -/
theorem drwXorsTheSpriteAndReportsCollision : Obligations.DrwXorsTheSpriteAndReportsCollision := by
  unfold Obligations.DrwXorsTheSpriteAndReportsCollision
  intro s x y n
  constructor
  · intro h
    obtain ⟨t, ht, hdrawn⟩ := exec_drw_draws h
    exact ⟨t, ht, hdrawn.frame, fun _ _ => ⟨hdrawn.touched, hdrawn.untouched⟩, hdrawn.hit.mpr, hdrawn.flag_eq_zero⟩
  · intro h0 hgt
    exact takesFault_of_raise (exec_drw_of_gt s x y n h0 hgt)

/-- Settles O26: the two draws touch the same pixels. -/
theorem drawingTwiceRestoresTheFramebuffer : Obligations.DrawingTwiceRestoresTheFramebuffer := by
  unfold Obligations.DrawingTwiceRestoresTheFramebuffer
  intro s x y n h
  obtain ⟨t, ht, hdrawn⟩ := exec_drw_draws h
  refine ⟨t, ht, fun hdark => hdrawn.flag_eq_zero (by simp [hdark]), fun hx hy => ?_⟩
  have hi : t.i = s.i := hdrawn.frame.block.i (by simp)
  obtain ⟨u, hu, hagain⟩ := exec_drw_draws (s := t) (x := x) (y := y) (hi ▸ h)
  have hhit := hdrawn.hit_of_twice hagain hx hy
  refine ⟨u, hu, hdrawn.fb_of_twice hagain hx hy, hagain.flag, hhit, fun hdark => ?_⟩
  simp only [hhit, hdark, and_true, exists_spriteTouches]

/-! ### The lit pixels, counted (41_display.md R124) -/

/-- The set bits of the first `n` sprite rows at `I`: bit `b.2` (from the left) of row `b.1`. -/
def spriteBits (s : State) (n : Nibble) : Finset (Fin 16 × Fin 8) :=
  Finset.univ.filter fun b => b.1.val < n.toNat ∧ (s.mem.byteAt (s.i.toNat + b.1.val)).getLsbD (7 - b.2.val) = true

/-- The pixel a bit of the sprite falls on (R121). -/
def bitPixel (s : State) (x y : Reg) (b : Fin 16 × Fin 8) : Fin 64 × Fin 32 :=
  wrapPixel ((s.reg x).toNat + b.2.val) ((s.reg y).toNat + b.1.val)

/-- The pixels the sprite of `DRW VX, VY, N` touches. -/
def touchedPixels (s : State) (x y : Reg) (n : Nibble) : Finset (Fin 64 × Fin 32) :=
  (spriteBits s n).image (bitPixel s x y)

section Count
variable {s : State} {x y : Reg} {n : Nibble}

/-- Fewer than `m` consecutive coordinates are distinct modulo `m`. -/
theorem eq_of_wrapped_eq {m a c d : Nat} (hc : c < m) (hd : d < m) (h : (a + c) % m = (a + d) % m) : c = d :=
  (Nat.ModEq.add_left_cancel' a h).eq_of_lt_of_lt hc hd

theorem bitPixel_injective (s : State) (x y : Reg) : Function.Injective (bitPixel s x y) := by
  rintro ⟨r, c⟩ ⟨r', c'⟩ h
  obtain ⟨hx, hy⟩ := Prod.ext_iff.mp h
  have hcol : c.val = c'.val := eq_of_wrapped_eq (by omega) (by omega) (Fin.ext_iff.mp hx)
  have hrow : r.val = r'.val := eq_of_wrapped_eq (by omega) (by omega) (Fin.ext_iff.mp hy)
  exact Prod.ext (Fin.ext hrow) (Fin.ext hcol)

theorem mem_touchedPixels {p : Fin 64 × Fin 32} : p ∈ touchedPixels s x y n ↔ spriteTouches s x y n p.1 p.2 := by
  simp only [touchedPixels, spriteBits, Finset.mem_image, Finset.mem_filter, Finset.mem_univ, true_and]
  constructor
  · rintro ⟨b, ⟨hr, hbit⟩, rfl⟩
    exact ⟨b.1, hr, b.2, b.2.isLt, hbit, rfl, rfl⟩
  · rintro ⟨r, hr, c, hc, hbit, hx, hy⟩
    have hn : n.toNat < 16 := n.toNat_lt
    exact ⟨(⟨r, by omega⟩, ⟨c, hc⟩), ⟨hr, hbit⟩, Prod.ext (Fin.ext hx.symm) (Fin.ext hy.symm)⟩

/-- As no two bits fall on one pixel, the set bits on lit or on dark pixels are as many as the touched pixels of that kind. -/
theorem spriteBitsOn_eq (lit : Bool) :
    spriteBitsOn s x y n lit = ((touchedPixels s x y n).filter fun p => pixelAt s.fb p.1 p.2 = lit).card := by
  rw [touchedPixels, Finset.filter_image, Finset.card_image_of_injective _ (bitPixel_injective s x y), spriteBits,
    Finset.filter_filter]
  simp only [and_assoc]
  rfl

end Count

/-- The lit pixels are those of a set and those outside it. -/
theorem litCount_split (fb : Framebuffer) (p : Finset (Fin 64 × Fin 32)) :
    litCount fb = (p.filter fun q => pixelAt fb q.1 q.2 = true).card +
      (Finset.univ.filter fun q => q ∉ p ∧ pixelAt fb q.1 q.2 = true).card := by
  have inside : (Finset.univ.filter fun q => pixelAt fb q.1 q.2 = true ∧ q ∈ p) =
      p.filter fun q => pixelAt fb q.1 q.2 = true := Finset.ext fun q => by simp [and_comm]
  rw [litCount, ← Finset.card_filter_add_card_filter_not (· ∈ p), Finset.filter_filter, Finset.filter_filter, inside]
  simp only [and_comm]

/-- Flipping the pixels of a set makes its dark ones lit and its lit ones dark. -/
theorem litCount_of_flipped {f g : Framebuffer} {p : Finset (Fin 64 × Fin 32)}
    (hin : ∀ q ∈ p, pixelAt g q.1 q.2 = !pixelAt f q.1 q.2) (hout : ∀ q ∉ p, pixelAt g q.1 q.2 = pixelAt f q.1 q.2) :
    litCount g + (p.filter fun q => pixelAt f q.1 q.2 = true).card =
      litCount f + (p.filter fun q => pixelAt f q.1 q.2 = false).card := by
  have inside : (p.filter fun q => pixelAt g q.1 q.2 = true) = p.filter fun q => pixelAt f q.1 q.2 = false :=
    Finset.filter_congr fun q hq => by rw [hin q hq, Bool.not_eq_true']
  have outside : (Finset.univ.filter fun q => q ∉ p ∧ pixelAt g q.1 q.2 = true) =
      Finset.univ.filter fun q => q ∉ p ∧ pixelAt f q.1 q.2 = true :=
    Finset.filter_congr fun q _ => and_congr_right fun hq => by rw [hout q hq]
  rw [litCount_split g p, litCount_split f p, inside, outside]
  omega

/-- Settles O47: the touched pixels are flipped, and there are as many as set bits. -/
theorem drawTouchesEachPixelOnceAndCountsLitPixels : Obligations.DrawTouchesEachPixelOnceAndCountsLitPixels := by
  unfold Obligations.DrawTouchesEachPixelOnceAndCountsLitPixels
  intro s x y n
  constructor
  · intro r hr r' hr' c hc c' hc' hx hy
    have hn : n.toNat < 16 := n.toNat_lt
    exact ⟨eq_of_wrapped_eq (by omega) (by omega) hy, eq_of_wrapped_eq (by omega) (by omega) hx⟩
  · intro h
    obtain ⟨t, ht, hdrawn⟩ := exec_drw_draws h
    refine ⟨t, ht, ?_⟩
    rw [spriteBitsOn_eq, spriteBitsOn_eq]
    exact litCount_of_flipped (fun q hq => hdrawn.touched (mem_touchedPixels.mp hq))
      fun q hq => hdrawn.untouched (mt mem_touchedPixels.mpr hq)

end Sys2Proof.Machine

/-! PROOF. The loads, logic, arithmetic, shifts and the random byte (42_alu.md R131 to R142): each is one write of VX, or one
write of VX and then of VF, and what is left is the value written. -/

namespace Sys2Proof.Machine

/-! ### Arithmetic on bytes -/

/-- The difference of bytes is the difference of their values modulo 256 (42_alu.md R138, R140). -/
theorem natCast_byte_sub_toNat (a b : Byte) : ((a - b).toNat : Int) = ((a.toNat : Int) - (b.toNat : Int)) % 256 := by
  have ha : a.toNat < 256 := a.isLt
  have hb : b.toNat < 256 := b.isLt
  rw [BitVec.toNat_sub]
  omega

theorem byte_ushiftRight_one_toNat (a : Byte) : (a >>> 1).toNat = a.toNat / 2 := by
  rw [BitVec.toNat_ushiftRight, Nat.shiftRight_one]

theorem byte_shiftLeft_one_toNat (a : Byte) : (a <<< 1).toNat = 2 * a.toNat % 256 := by
  rw [BitVec.toNat_shiftLeft, Nat.shiftLeft_eq, pow_one, Nat.mul_comm]

/-! ### The two shapes of write -/

/-- An instruction that ends in one register write leaves that value in VX and changes nothing else: `p` is what its rule says
of the value. -/
theorem writesVx_of_exec {i : Instr} {s : State} {x : Reg} {b : Byte} (p : Byte → Prop) (h : exec i s = .next (s.setReg x b))
    (hp : p b) : ∃ t, exec i s = .next t ∧ p (t.reg x) ∧ Frame [.v x] s t :=
  ⟨_, h, by rwa [State.reg_setReg_self], frame_setReg s x b⟩

/-- An instruction that writes a result and then a flag leaves the result in VX unless VX is VF, the flag in VF, and changes
nothing else (00_scope.md R11): `p` is what its rule says of the result, `k` the flag's value. -/
theorem writesVxAndFlag_of_exec {i : Instr} {s : State} {x : Reg} {b g : Byte} {k : Nat} (p : Byte → Prop)
    (h : exec i s = .next (s.setRegAndFlag x b g)) (hp : p b) (hg : g.toNat = k) :
    ∃ t, exec i s = .next t ∧ Frame [.v x, .v VF] s t ∧ (x ≠ VF → p (t.reg x)) ∧ (t.reg VF).toNat = k :=
  ⟨_, h, frame_setRegAndFlag s x b g, fun hx => by rwa [State.setRegAndFlag_result _ hx], by rwa [State.setRegAndFlag_flag]⟩

/-! ### The statements -/

/-- Settles O27: one write of VX each. -/
theorem loadsAddsAndLogicWriteOnlyVx : Obligations.LoadsAddsAndLogicWriteOnlyVx := by
  unfold Obligations.LoadsAddsAndLogicWriteOnlyVx
  intro s x y nn
  refine ⟨?ldNn, ?addNn, ?ldVy, ?or, ?and, ?xor⟩
  case ldNn => exact writesVx_of_exec (· = nn) rfl rfl
  case addNn => exact writesVx_of_exec (·.toNat = _) rfl (BitVec.toNat_add _ _)
  case ldVy => exact writesVx_of_exec (· = s.reg y) rfl rfl
  case or =>
    exact writesVx_of_exec (∀ k, ·.getLsbD k = ((s.reg x).getLsbD k || (s.reg y).getLsbD k)) rfl fun _ => BitVec.getLsbD_or
  case and =>
    exact writesVx_of_exec (∀ k, ·.getLsbD k = ((s.reg x).getLsbD k && (s.reg y).getLsbD k)) rfl fun _ => BitVec.getLsbD_and
  case xor =>
    exact writesVx_of_exec (∀ k, ·.getLsbD k = ((s.reg x).getLsbD k ^^ (s.reg y).getLsbD k)) rfl fun _ => BitVec.getLsbD_xor

/-- Settles O28: ADD wraps as the exact sum does, SUB and SUBN are one difference with the operands exchanged. -/
theorem addSubSubnResultAndFlag : Obligations.AddSubSubnResultAndFlag := by
  unfold Obligations.AddSubSubnResultAndFlag
  intro s x y
  refine ⟨?add, ?sub, ?subn⟩
  case add => exact writesVxAndFlag_of_exec (·.toNat = _) rfl (BitVec.toNat_add _ _) (carryFlag_toNat _ _)
  case sub => exact writesVxAndFlag_of_exec (·.toNat = (_ : Int)) rfl (natCast_byte_sub_toNat _ _) (noBorrowFlag_toNat _ _)
  case subn => exact writesVxAndFlag_of_exec (·.toNat = (_ : Int)) rfl (natCast_byte_sub_toNat _ _) (noBorrowFlag_toNat _ _)

/-- Settles O29: a shift by one place is a halving or a doubling modulo 256. -/
theorem shiftsResultAndFlag : Obligations.ShiftsResultAndFlag := by
  unfold Obligations.ShiftsResultAndFlag
  intro s x y
  refine ⟨?shr, ?shl⟩
  case shr => exact writesVxAndFlag_of_exec (·.toNat = _) rfl (byte_ushiftRight_one_toNat _) (lowBitFlag_toNat _)
  case shl => exact writesVxAndFlag_of_exec (·.toNat = _) rfl (byte_shiftLeft_one_toNat _) (highBitFlag_toNat _)

/-- Settles O30: `s.rnd` is any byte, so this is one bitwise AND. -/
theorem rndMasksTheRandomByte : Obligations.RndMasksTheRandomByte := by
  unfold Obligations.RndMasksTheRandomByte
  intro s x nn
  exact writesVx_of_exec (∀ k, ·.getLsbD k = (s.rnd.getLsbD k && nn.getLsbD k)) rfl fun _ => BitVec.getLsbD_and

end Sys2Proof.Machine

/-! PROOF. The index register and the moves between registers and memory (43_index_memory.md R150 to R155): each store is one run
of bytes written from `I` up, the load one run of registers. -/

namespace Sys2Proof.Machine

/-! ### One byte of a run -/

theorem Memory.byteAt_writeImage_add (m : Memory) (a : Nat) {bs : List Byte} {k : Nat} (hk : k < bs.length) :
    (m.writeImage a bs).byteAt (a + k) = bs[k] := by
  rw [Memory.byteAt_writeImage, dif_pos (by omega)]
  simp only [Nat.add_sub_cancel_left]

/-- Each digit is below 256, so its byte holds it (43_index_memory.md R153). -/
theorem decimalDigits_map_toNat (a : Byte) :
    (decimalDigits a).map BitVec.toNat = [a.toNat / 100, a.toNat / 10 % 10, a.toNat % 10] := by
  have ha : a.toNat < 256 := a.isLt
  simp only [decimalDigits, List.map_cons, List.map_nil, BitVec.toNat_ofNat, List.cons.injEq, and_true]
  omega

theorem Memory.byteAt_writeImage_decimalDigits (m : Memory) (i : Nat) (a : Byte) {k : Nat} (hk : k < 3) :
    ((m.writeImage i (decimalDigits a)).byteAt (i + k)).toNat =
      [a.toNat / 100, a.toNat / 10 % 10, a.toNat % 10][k] := by
  have hlen : k < (decimalDigits a).length := hk
  rw [Memory.byteAt_writeImage_add m i hlen]
  simp only [← decimalDigits_map_toNat, List.getElem_map]

@[simp] theorem bytesAtI_length (s : State) (n : Nat) : (bytesAtI s n).length = n := by simp [bytesAtI]

theorem bytesAtI_getElem (s : State) {n k : Nat} (hk : k < (bytesAtI s n).length) :
    (bytesAtI s n)[k] = s.mem.byteAt (s.i.toNat + k) := by
  simp [bytesAtI]

/-- The load gives each of V0..VX its own byte, and leaves the registers above VX (43_index_memory.md R155). -/
theorem State.setRegsFrom_bytesAtI_reg (s : State) (x k : Reg) :
    (s.setRegsFrom 0 (bytesAtI s (x.val + 1))).reg k =
      if k.val ≤ x.val then s.mem.byteAt (s.i.toNat + k.val) else s.reg k := by
  have hlen : (bytesAtI s (x.val + 1)).length = x.val + 1 := bytesAtI_length s _
  rw [State.setRegsFrom_reg]
  by_cases hk : k.val ≤ x.val
  · rw [dif_pos (by omega), if_pos hk, bytesAtI_getElem, Nat.sub_zero]
  · rw [dif_neg (by omega), if_neg hk]

/-! ### The statements -/

/-- Settles O31: one write of `I` each; only the sum can wrap. -/
theorem indexInstructionsSetI : Obligations.IndexInstructionsSetI := by
  unfold Obligations.IndexInstructionsSetI
  intro s x nnn
  refine ⟨?ldI, ?addI, ?ldF⟩
  case ldI => exact ⟨_, rfl, zextAddr_toNat nnn, frame_setI s _⟩
  case addI =>
    have hsum : (s.i + zextByte (s.reg x)).toNat = (s.i.toNat + (s.reg x).toNat) % 65536 := by
      rw [BitVec.toNat_add, zextByte_toNat]
    exact ⟨_, rfl, hsum, frame_setI s _⟩
  case ldF => exact ⟨_, rfl, glyphAddress_toNat (s.reg x), frame_setI s _⟩

/-- Settles O32: the run stored is the three digits. -/
theorem ldBStoresTheDecimalDigits : Obligations.LdBStoresTheDecimalDigits := by
  unfold Obligations.LdBStoresTheDecimalDigits
  intro s x
  constructor
  · intro hi
    have hrule : WithinRule (.ldBVx x) s _ := .of_setMem (decimalDigits (s.reg x)) rfl rfl
    have hdigit {k : Nat} (hk : k < 3) := s.mem.byteAt_writeImage_decimalDigits s.i.toNat (s.reg x) hk
    exact ⟨_, exec_ldB_of_le s x hi, hrule.frame, hdigit (k := 0) (by decide), hdigit (k := 1) (by decide),
      hdigit (k := 2) (by decide), hrule.bytes⟩
  · intro hi
    exact takesFault_of_raise (exec_ldB_of_gt s x hi)

/-- Settles O33: the run stored is V0..VX. -/
theorem ldMemStoresTheRegisters : Obligations.LdMemStoresTheRegisters := by
  unfold Obligations.LdMemStoresTheRegisters
  intro s x
  constructor
  · intro hi
    have hrule : WithinRule (.ldMemVx x) s _ := .of_setMem (regsUpTo s x) (regsUpTo_length s x) rfl
    refine ⟨_, exec_ldMem_of_le s x hi, hrule.frame, fun k hk => ?_, hrule.bytes⟩
    have hlt : k.val < (regsUpTo s x).length := by rw [regsUpTo_length]; omega
    exact (Memory.byteAt_writeImage_add _ _ hlt).trans (regsUpTo_getElem s x k hlt)
  · intro hi
    exact takesFault_of_raise (exec_ldMem_of_gt s x hi)

/-- Settles O34: the run loaded is V0..VX. -/
theorem ldVxMemLoadsTheRegisters : Obligations.LdVxMemLoadsTheRegisters := by
  unfold Obligations.LdVxMemLoadsTheRegisters
  intro s x
  constructor
  · intro hi
    have hrule := withinRule_ldVxMem s x _ (bytesAtI_length s (x.val + 1))
    have hparts : partsWritten (.ldVxMem x) = (regRange x).map Part.v := List.append_nil _
    refine ⟨_, exec_ldVxMem_of_le s x hi, hparts ▸ hrule.frame, fun k hk => ?_, fun k hk => ?_⟩
    · rw [State.setRegsFrom_bytesAtI_reg, if_pos hk]
    · rw [State.setRegsFrom_bytesAtI_reg, if_neg (by omega)]
  · intro hi
    exact takesFault_of_raise (exec_ldVxMem_of_gt s x hi)

end Sys2Proof.Machine

/-! PROOF. The key tests, the key wait, and the timer reads and writes (44_input_timers.md R165 to R170). -/

namespace Sys2Proof.Machine

/-! ### The key wait -/

/-- A key's number fits a register (44_input_timers.md R168). -/
theorem byte_ofReg_toNat (k : Reg) : (BitVec.ofNat 8 k.val).toNat = k.val :=
  (BitVec.toNat_ofNat _ 8).trans (Nat.mod_eq_of_lt (by omega))

/-- With a key pressed, `KEY_SELECT` gives one, and VX becomes its number. -/
theorem exec_ldVxK_of_pressed {s : State} {k : Reg} (h : s.keyDown k = true) (x : Reg) :
    ∃ j, s.keyDown j = true ∧ exec (.ldVxK x) s = .next (s.setReg x (BitVec.ofNat 8 j.val)) := by
  have hk : k ∈ pressedKeys s := (mem_pressedKeys s k).mpr h
  cases hj : keySelect (pressedKeys s) s.pick with
  | none => exact absurd hk (by simp [keySelect_eq_none.mp hj])
  | some j => exact ⟨j, (mem_pressedKeys s j).mp (keySelect_mem hj), exec_ldVxK_of_some s x j hj⟩

/-- A waiting tick: the rewind is the fetch's advance undone, so what remains is the tick's inputs and its answer. -/
theorem tick_of_wait {s : State} {x : Reg} (hf : s.fault = none) (hp : s.pc.toNat ≤ 0xFFE)
    (hw : decodeWord (s.mem.wordAt s.pc.toNat) = some (.ldVxK x)) (hup : ∀ k, s.keyDown k = false) (rnd : Byte) (pick : Nat) :
    tick rnd pick s = .next ((s.beginTick rnd pick).setAnswer .ok) :=
  calc tick rnd pick s
    _ = exec (.ldVxK x) (fetched rnd pick s) := tick_of_instr hf hp hw rnd pick
    _ = .next (fetched rnd pick s).beforeFetch := exec_ldVxK_of_none _ x hup
    _ = .next ((s.beginTick rnd pick).setAnswer .ok) := by rw [fetched_beforeFetch]

/-- Settles O39: the waiting tick records its inputs and its answer, and neither is a part of the block. -/
theorem waitingTickChangesNothing : Obligations.WaitingTickChangesNothing := by
  unfold Obligations.WaitingTickChangesNothing
  intro s x rnd pick hf hp hw hup
  refine ⟨_, tick_of_wait hf hp hw hup rnd pick, rfl, ?_⟩
  exact (blockFrame_beginTick s rnd pick _).trans (blockFrame_setAnswer _ _ _)

/-- Settles O38: `KEY_SELECT` takes a pressed key where there is one, and each is what some choice takes. -/
theorem keyWaitPollsOrTakesAPressedKey : Obligations.KeyWaitPollsOrTakesAPressedKey := by
  unfold Obligations.KeyWaitPollsOrTakesAPressedKey
  intro s x
  refine ⟨fun hup => ⟨_, exec_ldVxK_of_none s x hup, rfl, frame_setPc s _⟩, fun k hk => ⟨?takes, ?anyKey⟩⟩
  case takes =>
    obtain ⟨j, hj, hexec⟩ := exec_ldVxK_of_pressed hk x
    refine ⟨_, hexec, frame_setReg s x _, j, hj, ?_⟩
    rw [State.reg_setReg_self, byte_ofReg_toNat]
  case anyKey =>
    obtain ⟨pick, hpick⟩ := exists_keySelect ((mem_pressedKeys s k).mpr hk)
    refine ⟨pick, _, exec_ldVxK_of_some { s with pick := pick } x k hpick, ?_⟩
    rw [State.reg_setReg_self, byte_ofReg_toNat]

/-! ### The key tests -/

/-- Settles O37: the two are one skip, on the key's level or on its negation. -/
theorem keySkipsTestTheKey : Obligations.KeySkipsTestTheKey := by
  unfold Obligations.KeySkipsTestTheKey
  intro s x
  constructor
  · intro k hk
    exact ⟨skips_of_exec (exec_skp_of_lt s x k hk) id id,
      skips_of_exec (exec_sknp_of_lt s x k hk) (congrArg not) (congrArg not)⟩
  · intro hx
    exact ⟨takesFault_of_raise (exec_skp_of_gt s x hx), takesFault_of_raise (exec_sknp_of_gt s x hx)⟩

/-! ### The timers -/

/-- Settles O40: one write each; the timer tick after LD ST, VX finds VX in `ST`. -/
theorem timerInstructionsMoveTheTimers : Obligations.TimerInstructionsMoveTheTimers := by
  unfold Obligations.TimerInstructionsMoveTheTimers
  intro s x
  refine ⟨?ldVxDt, ?ldDtVx, ?ldStVx⟩
  case ldVxDt => exact writesVx_of_exec (· = s.dt) rfl rfl
  case ldDtVx => exact ⟨_, rfl, rfl, frame_setDt s _⟩
  case ldStVx =>
    refine ⟨_, rfl, rfl, frame_setSt s _, fun hf => ⟨_, rfl, ?_⟩⟩
    rw [tickTimers_of_running (s := s.setSt (s.reg x)) hf, State.setSt_st]

end Sys2Proof.Machine

/-! PROOF. Faults and timers (60_exceptions.md R182, R183, R187, R188): a fault is the block before the tick with `FAULT` set, it
stays until RESET, and the timers count down to the alert. -/

namespace Sys2Proof.Machine

/-! ### A fault is precise, and stays (60_exceptions.md R182, R183) -/

/-- Settles O10: of the cases of a TICK only the fetch's fault and an instruction's own leave a record, and each enters it in a
state that is `s` but for the tick's inputs and answer. -/
theorem faultEntryRestoresTheState : Obligations.FaultEntryRestoresTheState := by
  unfold Obligations.FaultEntryRestoresTheState
  intro s t rnd pick f hf ht hfault
  have hbegin := blockFrame_beginTick s rnd pick [.fault]
  obtain ⟨g, hg, -⟩ | ⟨-, hp, rfl⟩ | ⟨-, -, -, rfl⟩ | ⟨i, -, hp, hw, -⟩ := tick_cases ht
  case inl => simp [hf] at hg
  case inr.inl =>
    cases hfault
    exact ⟨hbegin.trans (blockFrame_enterFault _ _ _ _), rfl, rfl, (if_pos hp).symm⟩
  case inr.inr.inl => simp [hf] at hfault
  case inr.inr.inr =>
    cases hi : faultRaised i s with
    | some r =>
      cases ht.symm.trans (tick_of_fault hf hp hw hi rnd pick)
      cases hfault
      exact ⟨(hbegin.trans (blockFrame_setAnswer _ _ _)).trans (blockFrame_enterFault _ _ _ _), rfl, rfl,
        (if_neg (Nat.not_lt.mpr hp)).symm⟩
    | none =>
      obtain ⟨u, hu, hrule⟩ := tick_withinRule hf hp hw hi rnd pick
      cases ht.symm.trans hu
      have hnone : t.fault = none := (hrule.frame.block.fault (by simp)).trans hf
      simp [hnone] at hfault

/-- What is said of some next state of an operation holds of the one it answers. -/
theorem holds_of_next {r : Result} {t : State} {p : State → Prop} (ht : r = .next t) (h : ∃ u, r = .next u ∧ p u) : p t := by
  obtain ⟨u, hu, hp⟩ := h
  cases ht.symm.trans hu
  exact hp

/-- Every operation but RESET leaves a faulted block as it is (10_state.md R48). -/
theorem perform_of_faulted {op : HostOp} {s t : State} (hf : s.fault ≠ none) (hop : op ≠ .reset)
    (ht : perform op s = .next t) : BlockFrame [] s t := by
  obtain ⟨f, hf⟩ := Option.ne_none_iff_exists'.mp hf
  obtain ⟨htick, htimers, hload, hkey, hread, -⟩ := faultedBlockIsFrozen s f hf
  cases op with
  | reset => exact absurd rfl hop
  | tick rnd pick => exact (holds_of_next ht (htick rnd pick)).2
  | tickTimers => exact (holds_of_next ht htimers).2
  | load img => exact (holds_of_next ht (hload img)).2
  | readFb => exact (holds_of_next ht hread).2
  | setKey k p =>
    by_cases hk : k ≤ 15
    · exact holds_of_next ht (hkey k p hk)
    · cases ht.symm.trans (setKey_of_gt s (Nat.not_le.mp hk) p)

/-- The host's queue is no part of the block (log entry 1). -/
theorem blockFrame_setPending (s : State) (ops : List HostOp) (p : List Part) : BlockFrame p s { s with pending := ops } := by
  refine ⟨?_, ?_, ?_, ?_, ?_, ?_, ?_, ?_, ?_, ?_, ?_⟩ <;> simp [State.reg]

/-- Settles O12: a step is one operation, and each but RESET leaves the whole block, its fault record included. -/
theorem firstFaultStaysUntilReset : Obligations.FirstFaultStaysUntilReset := by
  unfold Obligations.FirstFaultStaysUntilReset
  intro s t f hf ht
  have hne : s.fault ≠ none := by simp [hf]
  have kept (h : BlockFrame [] s t) : t.fault = some f ∧ BlockFrame [] s t := ⟨(h.fault (by simp)).trans hf, h⟩
  obtain ⟨op, rest, hpend, hstep⟩ | ⟨-, hstep⟩ := step_cases s
  · have hop := hstep.symm.trans ht
    by_cases hreset : op = .reset
    · subst hreset
      cases hop
      exact .inr ⟨rest, hpend, rfl⟩
    · exact .inl (kept ((blockFrame_setPending s rest []).trans (perform_of_faulted hne hreset hop)))
  · exact .inl (kept (perform_of_faulted (op := .tick _ _) hne (by simp) (hstep.symm.trans ht)))

/-! ### The timers count down (60_exceptions.md R187, R188) -/

theorem blockFrame_setTimers (s : State) (d e : Byte) (a : Answer) :
    BlockFrame [.dt, .st] s { s with dt := d, st := e, answer := a } := by
  refine ⟨?_, ?_, ?_, ?_, ?_, ?_, ?_, ?_, ?_, ?_, ?_⟩ <;> simp [State.reg]

/-- Settles O41: the equation of `tickTimers` on a running block, and that on a faulted one. -/
theorem tickTimersCountDownToZero : Obligations.TickTimersCountDownToZero := by
  unfold Obligations.TickTimersCountDownToZero
  intro s
  constructor
  · intro hf
    exact ⟨_, congrArg Host.Outcome.next (tickTimers_of_running hf), countDown_toNat s.dt, countDown_toNat s.st, rfl,
      blockFrame_setTimers s _ _ _⟩
  · intro hf
    exact ⟨_, congrArg Host.Outcome.next (tickTimers_of_faulted hf), rfl, blockFrame_setAnswer s _ _⟩

/-- Settles O42, by induction on the number of ticks: the first leaves a running block whose `ST` is less by 1. -/
theorem alertComesExactlyAtTheNthTimerTick : Obligations.AlertComesExactlyAtTheNthTimerTick := by
  unfold Obligations.AlertComesExactlyAtTheNthTimerTick
  intro s k hf
  induction k generalizing s with
  | zero => rw [Function.iterate_one, tickTimers_of_running hf]
  | succ k ih =>
    have hfault : (tickTimers s).fault = none := by rw [tickTimers_of_running hf]; exact hf
    have hst : (tickTimers s).st.toNat = s.st.toNat - 1 := by rw [tickTimers_of_running hf]; exact countDown_toNat s.st
    have hn : s.st.toNat - 1 = k + 1 ↔ s.st.toNat = k + 1 + 1 := by omega
    rw [Function.iterate_succ_apply, ih (tickTimers s) hfault, hst, decide_eq_decide.mpr hn]

end Sys2Proof.Machine

/-! PROOF. Reset (70_reset_and_hazards.md R200): RESET gives every item its reset value from every state. -/

namespace Sys2Proof.Machine

/-- Memory with nothing listed reads as `FONT` at 0x000..0x04F (20_memory.md R62, R63). -/
theorem Memory.byteAt_empty_font (f : Vector Byte 80) (a : Fin 80) : Memory.byteAt ⟨f, []⟩ a.val = f.get a :=
  dif_pos a.isLt

/-- Memory with nothing listed reads as 0 above `FONT` (20_memory.md R63). -/
theorem Memory.byteAt_empty_zero (f : Vector Byte 80) {a : Nat} (ha : 80 ≤ a) : Memory.byteAt ⟨f, []⟩ a = 0 :=
  dif_neg (Nat.not_lt.mpr ha)

/-- The core's `Vector.getElem_replicate`, in the model's spelling of a read. -/
theorem get_vectorReplicate {α : Type} {n : Nat} (c : α) (k : Fin n) : (Vector.replicate n c).get k = c :=
  Vector.getElem_replicate k.isLt

/-- Settles O18: the state after reset is what RESET makes of it, and RESET ends in the invariant from every state. -/
theorem resetStateMeetsTheInvariant : Obligations.ResetStateMeetsTheInvariant := by
  unfold Obligations.ResetStateMeetsTheInvariant
  have hreset : resetBlock State.reset = State.reset := rfl
  exact hreset ▸ resetBlock_invariant State.reset

/-- Settles O43: the scalar items are fields of `resetBlock s`; memory lists nothing, and the other items repeat one value. -/
theorem resetGivesEveryItemItsResetValue : Obligations.ResetGivesEveryItemItsResetValue := by
  unfold Obligations.ResetGivesEveryItemItsResetValue
  intro s
  refine ⟨resetBlock s, rfl, rfl, ?font, ?zero, ?regs, rfl, rfl, ?stack, rfl, rfl, rfl, ?keys, ?pixels, rfl, rfl⟩
  case font => exact Memory.byteAt_empty_font s.mem.font
  case zero => exact fun _ => Memory.byteAt_empty_zero s.mem.font
  case regs => exact get_vectorReplicate 0
  case stack => exact get_vectorReplicate 0
  case keys => exact get_vectorReplicate false
  case pixels => exact pixelAt_dark

end Sys2Proof.Machine
